-- ==== Sys2Proof/Word.lean ====
section
/-! DEFINITION. The word types of the block: the 32-bit command word (30_encoding.md R70) and the byte. -/

namespace Sys2Proof

/-- One byte of the text input, of the accumulator buffer or of the output (20_memory.md R40). -/
abbrev Byte := BitVec 8

/-- One command word `W[31:0]` (30_encoding.md R70). It arrives whole, so no byte order applies. -/
abbrev Word := BitVec 32

end Sys2Proof
end

