-- ==== Sys2Proof/Syntax.lean ====
section
/-! DEFINITION. The commands of the block as terms: one constructor per row of spec/opcode_table.json
(30_encoding.md R75), with the operand fields of the formats of R71. -/

namespace Sys2Proof

/-- The three encoding modes (00_scope.md R2; 30_encoding.md R72). -/
inductive Mode where
  | numeric
  | alphanumeric
  | byte
  deriving DecidableEq, Repr

/-- The four error-correction levels (00_scope.md R2; 30_encoding.md R73). -/
inductive ECLevel where
  | L
  | M
  | Q
  | H
  deriving DecidableEq, Repr

/-- The commands (30_encoding.md R75). A field is what R74 assembles from the word; the mode code
0b11 spells no command (R77), so a mode operand is one of the three modes. -/
inductive Instr where
  /-- `NEW hint` (R100). -/
  | new (hint : BitVec 16)
  /-- `PUSH value, width` (R101); `width` is `wm1 + 1`, so 1 to 16 (R74). -/
  | push (value : BitVec 16) (width : Nat)
  /-- `PUSHB value` (R105). -/
  | pushb (value : BitVec 8)
  /-- `PARTS` (R106). -/
  | parts
  /-- `ANALYZE` (R90). -/
  | analyze
  /-- `HDR mode, ver` (R132). -/
  | hdr (mode : Mode) (ver : BitVec 6)
  /-- `DNUM` (R135). -/
  | dnum
  /-- `DALNUM` (R137). -/
  | dalnum
  /-- `DBYTE` (R139). -/
  | dbyte
  /-- `FINISH R` (R160). -/
  | finish (required : BitVec 16)
  /-- `ENCODE ver, ec` (R166). -/
  | encode (ver : BitVec 6) (ec : ECLevel)
  deriving DecidableEq, Repr

end Sys2Proof
end

