-- ==== Sys2Proof/Config.lean ====
section
/-! DEFINITION. What an implementation fixes and the spec leaves open (00_scope.md R7, R8). -/

namespace Sys2Proof

/-- The open parameter CAP of R7 (92_eei_decisions.md D7: OPEN) at every point but the two that R7
pins; `Machine.capacity` adds those two. No body: no proof can see a value of it. Log entry 6. -/
opaque Config.cap : Nat → ECLevel → Nat

/-- MAX_TEXT_LEN of R8: a duty of the host, never checked by the block. Log entry 10. -/
opaque Config.maxTextLen : Nat

/-- MAX_BUF_BYTES of R8: a duty of the host, never checked by the block. Log entry 10. -/
opaque Config.maxBufBytes : Nat

/-- Rows 1 to 40 of R7's informative default for CAP, columns L, M, Q, H. The spec marks it as not
normative, so no step reads it; statements about the default name it. Log entry 7. -/
def Config.isoCapRows : List (Nat × Nat × Nat × Nat) :=
  [(19, 16, 13, 9), (34, 28, 22, 16), (55, 44, 34, 26), (80, 64, 48, 36), (108, 86, 62, 46),
   (136, 108, 76, 60), (156, 124, 88, 66), (194, 154, 110, 86), (232, 182, 132, 100),
   (274, 216, 154, 122)] ++
  [(324, 254, 180, 140), (370, 290, 206, 158), (428, 334, 244, 180), (461, 365, 261, 197),
   (523, 415, 295, 223), (589, 453, 325, 253), (647, 507, 367, 283), (721, 563, 397, 313),
   (795, 627, 445, 341), (861, 669, 485, 385)] ++
  [(932, 714, 512, 406), (1006, 782, 568, 442), (1094, 860, 614, 464), (1174, 914, 664, 514),
   (1276, 1000, 718, 538), (1370, 1062, 754, 596), (1468, 1128, 808, 628), (1531, 1193, 871, 661),
   (1631, 1267, 911, 701), (1735, 1373, 985, 745)] ++
  [(1843, 1455, 1033, 793), (1955, 1541, 1115, 845), (2071, 1631, 1171, 901),
   (2191, 1725, 1231, 961), (2306, 1812, 1286, 986), (2434, 1914, 1354, 1054),
   (2566, 1992, 1426, 1096), (2702, 2102, 1502, 1142), (2812, 2216, 1582, 1222),
   (2956, 2334, 1666, 1276)]

/-- R7's informative default for CAP; 0 for a version outside 1..40, where R7 gives no value. -/
def Config.isoCap (ver : Nat) (ec : ECLevel) : Nat :=
  match ver with
  | 0 => 0
  | v + 1 =>
    match Config.isoCapRows.getD v (0, 0, 0, 0), ec with
    | (l, _, _, _), .L => l
    | (_, m, _, _), .M => m
    | (_, _, q, _), .Q => q
    | (_, _, _, h), .H => h

end Sys2Proof
end

