-- ==== Sys2Proof/WellFormed.lean ====
section
/-! DEFINITION. Which command terms some word spells. Every field but PUSH's width has exactly the
width of its field in the word, so the width is the one thing to check (30_encoding.md R74: "Every
width the source's contract allows can be encoded, and no other can"). The version range of R78
and the value range of PUSH are checked when the command is performed, not here (R79). -/

namespace Sys2Proof

/-- The term is spelled by some command word. -/
def WellFormed : Instr → Bool
  | .new _ => true
  | .push _ width => decide (1 ≤ width) && decide (width ≤ 16)
  | .pushb _ => true
  | .parts => true
  | .analyze => true
  | .hdr _ _ => true
  | .dnum => true
  | .dalnum => true
  | .dbyte => true
  | .finish _ => true
  | .encode _ _ => true

end Sys2Proof
end

