-- ==== Sys2Proof/Decode.lean ====
section
/-! DEFINITION. The decoder of 30_encoding.md R79, total over all 2^32 words and rejecting by name,
and the encoder of the formats of R71 and the word table of R80. -/

namespace Sys2Proof

/-- Why a word spells no command (60_exceptions.md R182). The block records only that it is illegal;
the reason is the model's own (log entry 15). -/
inductive Illegal where
  /-- A reserved opcode, 0x0 or 0xC to 0xF (R76). -/
  | reservedOpcode
  /-- A bit the format marks `0` is 1 (R77). -/
  | nonzeroField
  /-- HDR with `sel = 0b11` (R77). -/
  | reservedMode
  deriving DecidableEq, Repr

/-- What the decoder answers for a word. -/
inductive Decoded where
  | command (i : Instr)
  | illegal (why : Illegal)
  deriving DecidableEq, Repr

/-- The field `W[hi:lo]` as a number (00_scope.md R10). -/
def field (w : Word) (hi lo : Nat) : Nat :=
  (w.toNat / 2 ^ lo) % 2 ^ (hi + 1 - lo)

/-- The 2-bit mode code (R72). -/
def modeCode : Mode → BitVec 2
  | .numeric => 0b00
  | .alphanumeric => 0b01
  | .byte => 0b10

/-- The mode a 2-bit code names; 0b11 is reserved (R72). -/
def modeOfCode (n : Nat) : Option Mode :=
  match n with
  | 0 => some .numeric
  | 1 => some .alphanumeric
  | 2 => some .byte
  | _ => none

/-- The 2-bit error-correction level code (R73). -/
def ecCode : ECLevel → BitVec 2
  | .L => 0b00
  | .M => 0b01
  | .Q => 0b10
  | .H => 0b11

/-- The level a 2-bit code names; all four are legal (R73). -/
def ecOfCode (n : Nat) : ECLevel :=
  match n with
  | 0 => .L
  | 1 => .M
  | 2 => .Q
  | _ => .H

/-- A word whose bits `hi:lo` must be 0 (R77). -/
def whenZero (w : Word) (hi lo : Nat) (d : Decoded) : Decoded :=
  if field w hi lo = 0 then d else .illegal .nonzeroField

/-- The decoder of R79, case by case. -/
def decode (w : Word) : Decoded :=
  match field w 31 28 with
  | 0x1 => whenZero w 27 16 (.command (.new (BitVec.ofNat 16 (field w 15 0))))
  | 0x2 => whenZero w 27 20
      (.command (.push (BitVec.ofNat 16 (field w 15 0)) (field w 19 16 + 1)))
  | 0x3 => whenZero w 27 8 (.command (.pushb (BitVec.ofNat 8 (field w 7 0))))
  | 0x4 => whenZero w 27 0 (.command .parts)
  | 0x5 => whenZero w 27 0 (.command .analyze)
  | 0x6 => whenZero w 27 10 (whenZero w 7 6
      (match modeOfCode (field w 9 8) with
       | none => .illegal .reservedMode
       | some m => .command (.hdr m (BitVec.ofNat 6 (field w 5 0)))))
  | 0x7 => whenZero w 27 0 (.command .dnum)
  | 0x8 => whenZero w 27 0 (.command .dalnum)
  | 0x9 => whenZero w 27 0 (.command .dbyte)
  | 0xA => whenZero w 27 16 (.command (.finish (BitVec.ofNat 16 (field w 15 0))))
  | 0xB => whenZero w 27 10 (whenZero w 7 6
      (.command (.encode (BitVec.ofNat 6 (field w 5 0)) (ecOfCode (field w 9 8)))))
  | _ => .illegal .reservedOpcode

/-- A word from its opcode and the number its low 28 bits hold (R71). -/
def opWord (op low : Nat) : Word :=
  BitVec.ofNat 32 (op * 2 ^ 28 + low)

/-- The word of a well-formed command (R71, R80). -/
def encode : Instr → Word
  | .new hint => opWord 0x1 hint.toNat
  | .push value width => opWord 0x2 ((width - 1) * 2 ^ 16 + value.toNat)
  | .pushb value => opWord 0x3 value.toNat
  | .parts => opWord 0x4 0
  | .analyze => opWord 0x5 0
  | .hdr mode ver => opWord 0x6 ((modeCode mode).toNat * 2 ^ 8 + ver.toNat)
  | .dnum => opWord 0x7 0
  | .dalnum => opWord 0x8 0
  | .dbyte => opWord 0x9 0
  | .finish required => opWord 0xA required.toNat
  | .encode ver ec => opWord 0xB ((ecCode ec).toNat * 2 ^ 8 + ver.toNat)

/-- The instruction the decoder reads from the first `nbits` bits of `w`, every bit above them 0; a
number that is no 32-bit word is no command (R70). -/
def decodeTableWord (nbits w : Nat) : Option Instr :=
  let n := w % 2 ^ nbits
  if n < 2 ^ 32 then
    match decode (BitVec.ofNat 32 n) with
    | .command i => some i
    | .illegal _ => none
  else none

end Sys2Proof
end

