-- ==== Sys2Proof/Machine/Bits.lean ====
section
/-! DEFINITION. Bit lists, most significant bit first (00_scope.md R10), and the byte view of a bit
list (10_state.md R23 to R25). -/

namespace Sys2Proof.Machine

/-- `bits_w(v)`: the `w` low bits of `v`, most significant first (R10). -/
def bitsOf : Nat → Nat → List Bool
  | 0, _ => []
  | w + 1, v => v.testBit w :: bitsOf w v

/-- `zeros(k)` (R10). -/
def zeros (k : Nat) : List Bool :=
  List.replicate k false

/-- The unsigned number a bit list spells, most significant bit first (R10). -/
def natOfBits (bits : List Bool) : Nat :=
  bits.foldl (fun n b => 2 * n + b.toNat) 0

/-- `LEN`, the byte count of a bit list (R23). -/
def byteLen (bits : List Bool) : Nat :=
  (bits.length + 7) / 8

/-- `SHIFT`, the bits used in the last byte (R24). -/
def shiftOf (bits : List Bool) : Nat :=
  bits.length % 8

/-- Byte `i` of the byte view: bit `7 - j` is stream bit `8*i + j`, and 0 past the end (R25). -/
def byteAt (bits : List Bool) (i : Nat) : Byte :=
  BitVec.ofNat 8 (natOfBits ((List.range 8).map fun j => bits.getD (8 * i + j) false))

/-- `Bytes(S)` (R25). -/
def bytesOf (bits : List Bool) : List Byte :=
  (List.range (byteLen bits)).map (byteAt bits)

end Sys2Proof.Machine
end

