-- ==== Sys2Proof/Machine/Operands.lean ====
section
/-! DEFINITION. What the commands read: the version operand, the capacity, the character classes and
the counts of the text, the selected mode, and the bits of the header and of the data fields
(00_scope.md R7, R12; 30_encoding.md R60 to R67; 40_mode_selector.md; 42_segment_encoders.md). -/

namespace Sys2Proof.Machine

/-- The version bands that key the count widths (30_encoding.md R63). -/
inductive Band where
  | one
  | two
  | three
  deriving DecidableEq, Repr

/-- The band of a version; a version outside 1..40 has none (R63). -/
def bandOf (ver : Nat) : Option Band :=
  if 1 ≤ ver ∧ ver ≤ 9 then some .one
  else if 10 ≤ ver ∧ ver ≤ 26 then some .two
  else if 27 ≤ ver ∧ ver ≤ 40 then some .three
  else none

/-- COUNT_WIDTH (R62). -/
def countWidth : Band → Mode → Nat
  | .one, .numeric => 10
  | .one, .alphanumeric => 9
  | .one, .byte => 8
  | .two, .numeric => 12
  | .two, .alphanumeric => 11
  | .two, .byte => 16
  | .three, .numeric => 14
  | .three, .alphanumeric => 13
  | .three, .byte => 16

/-- The mode indicator (R61). -/
def modeIndicator : Mode → BitVec 4
  | .numeric => 0b0001
  | .alphanumeric => 0b0010
  | .byte => 0b0100

/-- CAP(ver, ec): the open parameter, with the two points R7 pins. Log entry 6. -/
def capacity (ver : Nat) (ec : ECLevel) : Nat :=
  if ver = 1 ∧ ec = .H then 9
  else if ver = 4 ∧ ec = .H then 36
  else Config.cap ver ec

/-- A digit, a byte in 0x30..0x39 (R12). -/
def isDigit (b : Byte) : Bool :=
  decide (0x30 ≤ b.toNat) && decide (b.toNat ≤ 0x39)

/-- The value of a digit byte (R64). -/
def digitValue (b : Byte) : Nat :=
  b.toNat - 0x30

/-- The 45-symbol alphabet in table order (R65). -/
def alphabet : List Byte :=
  [0x30, 0x31, 0x32, 0x33, 0x34, 0x35, 0x36, 0x37, 0x38, 0x39] ++
  [0x41, 0x42, 0x43, 0x44, 0x45, 0x46, 0x47, 0x48, 0x49, 0x4A, 0x4B, 0x4C, 0x4D] ++
  [0x4E, 0x4F, 0x50, 0x51, 0x52, 0x53, 0x54, 0x55, 0x56, 0x57, 0x58, 0x59, 0x5A] ++
  [0x20, 0x24, 0x25, 0x2A, 0x2B, 0x2D, 0x2E, 0x2F, 0x3A]

/-- An alphanumeric symbol, a byte of the alphabet (R12). -/
def isAlnumSym (b : Byte) : Bool :=
  alphabet.contains b

/-- `ALNUM(b)`: the byte's place in the alphabet, and 0 for every other byte (R65). -/
def alnumValue (b : Byte) : Nat :=
  if isAlnumSym b then alphabet.idxOf b else 0

/-- A UTF-8 continuation byte, `b[7:6] = 0b10` (R12). -/
def isContinuation (b : Byte) : Bool :=
  b.toNat / 64 == 0b10

/-- The six payload bits of a continuation byte. -/
def payload (b : Byte) : Nat :=
  b.toNat % 64

/-- A well-formed two-byte sequence: lead 0b110xxxxx, and no overlong form (R131). -/
def isTwoByte (b0 b1 : Byte) : Bool :=
  b0.toNat / 32 == 0b110 && isContinuation b1 &&
    decide (0x80 ≤ b0.toNat % 32 * 64 + payload b1)

/-- The value a three-byte sequence carries. -/
def threeByteValue (b0 b1 b2 : Byte) : Nat :=
  (b0.toNat % 16 * 64 + payload b1) * 64 + payload b2

/-- A well-formed three-byte sequence: lead 0b1110xxxx, no overlong form, no surrogate (R131). -/
def isThreeByte (b0 b1 b2 : Byte) : Bool :=
  b0.toNat / 16 == 0b1110 && isContinuation b1 && isContinuation b2 &&
    decide (0x800 ≤ threeByteValue b0 b1 b2) &&
    !(decide (0xD800 ≤ threeByteValue b0 b1 b2) && decide (threeByteValue b0 b1 b2 ≤ 0xDFFF))

/-- The value a four-byte sequence carries. -/
def fourByteValue (b0 b1 b2 b3 : Byte) : Nat :=
  ((b0.toNat % 8 * 64 + payload b1) * 64 + payload b2) * 64 + payload b3

/-- A well-formed four-byte sequence: lead 0b11110xxx, no overlong form, no value above U+10FFFF
(R131). -/
def isFourByte (b0 b1 b2 b3 : Byte) : Bool :=
  b0.toNat / 8 == 0b11110 && isContinuation b1 && isContinuation b2 && isContinuation b3 &&
    decide (0x10000 ≤ fourByteValue b0 b1 b2 b3) && decide (fourByteValue b0 b1 b2 b3 ≤ 0x10FFFF)

/-- `validUtf8(T)` (R131, RFC 3629; log entry 12). -/
def validUtf8 : List Byte → Bool
  | [] => true
  | b0 :: t0 =>
    if b0.toNat < 0x80 then validUtf8 t0
    else match t0 with
      | [] => false
      | b1 :: t1 =>
        if isTwoByte b0 b1 then validUtf8 t1
        else match t1 with
          | [] => false
          | b2 :: t2 =>
            if isThreeByte b0 b1 b2 then validUtf8 t2
            else match t2 with
              | [] => false
              | b3 :: t3 => isFourByte b0 b1 b2 b3 && validUtf8 t3

/-- `SCALARS(T)`: the bytes of T that are not continuation bytes (R130). -/
def scalars (text : List Byte) : Nat :=
  text.countP fun b => !isContinuation b

/-- R90's loop from the running classification `m`. -/
def modeFrom (m : Mode) : List Byte → Mode
  | [] => m
  | b :: rest =>
    if isDigit b then modeFrom m rest
    else if isAlnumSym b then modeFrom .alphanumeric rest
    else .byte

/-- MODE_OF(T), which starts assuming Numeric (R90). -/
def modeOf (text : List Byte) : Mode :=
  modeFrom .numeric text

/-- COUNT(mode, T) before truncation (R130). -/
def charCount (m : Mode) (text : List Byte) : Nat :=
  match m with
  | .numeric => text.length
  | .alphanumeric => scalars text
  | .byte => scalars text

/-- The header HDR appends: the indicator, then the count modulo `2^cw` (R132, R133). -/
def headerBits (band : Band) (m : Mode) (text : List Byte) : List Bool :=
  bitsOf 4 (modeIndicator m).toNat ++
    bitsOf (countWidth band m) (charCount m text % 2 ^ countWidth band m)

/-- The fields DNUM appends (R64, R135). -/
def numericBits : List Byte → List Bool
  | [] => []
  | [d0] => bitsOf 4 (digitValue d0)
  | [d0, d1] => bitsOf 7 (digitValue d0 * 10 + digitValue d1)
  | d0 :: d1 :: d2 :: rest =>
    bitsOf 10 (digitValue d0 * 100 + digitValue d1 * 10 + digitValue d2) ++ numericBits rest

/-- The fields DALNUM appends (R66, R137). -/
def alnumBits : List Byte → List Bool
  | [] => []
  | [b0] => bitsOf 6 (alnumValue b0)
  | b0 :: b1 :: rest => bitsOf 11 (alnumValue b0 * 45 + alnumValue b1) ++ alnumBits rest

/-- The fields DBYTE appends (R67, R139). -/
def byteBits (text : List Byte) : List Bool :=
  text.flatMap fun b => bitsOf 8 b.toNat

/-- `DATA(m, T)` (R166). -/
def dataBits (m : Mode) (text : List Byte) : List Bool :=
  match m with
  | .numeric => numericBits text
  | .alphanumeric => alnumBits text
  | .byte => byteBits text

end Sys2Proof.Machine
end

