-- ==== Sys2Proof/Machine/State.lean ====
section
/-! DEFINITION. The state of the block (10_state.md R22, R27, R34), the host's side of its ports
(R29, R30; 70_reset_and_hazards.md R210), and the state right after reset (R33). -/

namespace Sys2Proof.Machine

/-- Why the machine would stop. THE BLOCK NEVER STOPS: "Every command on every state and every T gives
a response" (93_implementation_defined.md, after X20), and a fault of the block is a next state
(60_exceptions.md R189). So this type has no constructor, nobody raises one, and that is safe.
Log entry 21. -/
inductive Fault
  deriving DecidableEq, Repr

/-- Why a step has no meaning in this model. -/
inductive Refusal where
  /-- An instruction without a meaning. Raised by no arm of `exec`: every command has its meaning, so
  this is never answered. It would be safe. -/
  | notModelled (mnemonic : String)
  deriving DecidableEq, Repr

/-- The faults the block detects, in the order of their codes 1 to 6 (60_exceptions.md R181). -/
inductive FaultCode where
  | illegalCommand
  | versionRange
  | notActive
  | textNotUtf8
  | pushOperand
  | nonDigit
  deriving DecidableEq, Repr

/-- How a command ended (R180). The 2-bit code 3 is never returned (R29), so it has no constructor. -/
inductive Status where
  | ok
  | capacityExceeded
  | fault
  deriving DecidableEq, Repr

/-- The `mode` field of a response: the 2-bit code and the 4-bit indicator (R29, R72). -/
structure ModeField where
  code : BitVec 2
  indicator : BitVec 4
  deriving DecidableEq, Repr

/-- The response record (R29). An absent field is `none`. -/
structure Response where
  status : Status
  fault : BitVec 4
  active : Bool
  mode : Option ModeField
  bytes : Option (List Byte)
  shift : Option (BitVec 3)
  deriving DecidableEq, Repr

/-- One move of the host: a command word with the text presented with it (R30), or the reset input,
which is separate from the command port (R210). -/
inductive HostMove where
  | command (word : Word) (text : List Byte)
  | reset
  deriving DecidableEq, Repr

/-- The block and its ports. The block's own state is exactly `(accS, accActive, fault)` (R34). The
three ports are the arguments and the result of R34's step relation, held here because a step of
the model takes and gives a state only (log entry 1). -/
structure State where
  /-- `ACC.S`, the bits pushed so far, earliest first (R22). -/
  accS : List Bool
  /-- `ACC.active`, false once the accumulator is consumed (R22). -/
  accActive : Bool
  /-- The 4-bit FAULT register, 0 when no fault is recorded (R27). -/
  fault : BitVec 4
  /-- The text input T, as presented with the command being performed (R30). -/
  text : List Byte
  /-- What the host will do at the block's inputs, the next move first (R21). -/
  pending : List HostMove
  /-- The response to the last command (R29), none since reset. -/
  response : Option Response
  deriving DecidableEq, Repr

/-- The state right after reset (R33). The ports have no reset value in the spec ("inputs and outputs,
not state"): no text, no move pending, no response yet (log entries 4 and 5). -/
def State.reset : State where
  accS := []
  accActive := true
  fault := 0
  text := []
  pending := []
  response := none

end Sys2Proof.Machine
end

