-- ==== Sys2Proof/Machine/Flags.lean ====
section
/-! DEFINITION. The codes the host reads (fault codes, status codes, the mode field), the text checks
of HDR and DNUM, and the result of the terminator and padding filler (60_exceptions.md R181;
10_state.md R29; 43_finish_and_encode.md R161 to R164). The block has no condition flags beyond
FAULT and ACC.active (R28). -/

namespace Sys2Proof.Machine

/-- The 4-bit fault code (R181). -/
def FaultCode.code : FaultCode → BitVec 4
  | .illegalCommand => 1
  | .versionRange => 2
  | .notActive => 3
  | .textNotUtf8 => 4
  | .pushOperand => 5
  | .nonDigit => 6

/-- The 2-bit status code (R29). -/
def Status.code : Status → BitVec 2
  | .ok => 0
  | .capacityExceeded => 1
  | .fault => 2

/-- The mode a response carries: its code and its indicator (R72). -/
def modeField (m : Mode) : ModeField :=
  { code := modeCode m, indicator := modeIndicator m }

/-- The fault HDR's text check reports, none when the text can be counted (R132): a non-digit in
Numeric mode (R187), text that is not UTF-8 in the other two (R185). -/
def textFault (m : Mode) (text : List Byte) : Option FaultCode :=
  match m with
  | .numeric => if text.all isDigit then none else some .nonDigit
  | .alphanumeric => if validUtf8 text then none else some .textNotUtf8
  | .byte => if validUtf8 text then none else some .textNotUtf8

/-- The free bits of the last byte; 0 when SHIFT is 0, an empty accumulator included (R163). -/
def freeBits (shift : Nat) : Nat :=
  if shift = 0 then 0 else 8 - shift

/-- Pad byte `k`: 0xEC for even `k`, 0x11 for odd (R69). -/
def padByte (k : Nat) : Byte :=
  if k % 2 = 0 then 0xEC else 0x11

/-- The first `n` pad bytes; the count starts at 0 on every FINISH (R164). -/
def padBytes (n : Nat) : List Byte :=
  (List.range n).map padByte

/-- The content with the terminator byte, where one is due (R162). -/
def withTerminator (bytes : List Byte) (shift required : Nat) : List Byte :=
  if freeBits shift < 4 ∧ bytes.length < required then bytes ++ [0x00] else bytes

/-- FINISH_RESULT: the finished bytes, or none for CAPACITY_EXCEEDED (R161 to R164). -/
def finishResult (bytes : List Byte) (shift required : Nat) : Option (List Byte) :=
  if required < bytes.length then none
  else
    let b := withTerminator bytes shift required
    some (b ++ padBytes (required - b.length))

end Sys2Proof.Machine
end

