-- ==== Sys2Proof/Machine/Ops.lean ====
section
/-! DEFINITION. The named operations over the state: the append, the response, taking a fault and the
one return from it (reset), the sticky refusal, and the host's side of the ports. -/

namespace Sys2Proof.Machine

/-- `respond(...)`: every response carries FAULT and ACC.active as they are after the command (R29). -/
def State.respond (s : State) (status : Status) (mode : Option ModeField)
    (bytes : Option (List Byte)) (shift : Option (BitVec 3)) : State :=
  { s with
    response := some
      { status := status, fault := s.fault, active := s.accActive,
        mode := mode, bytes := bytes, shift := shift } }

/-- A response of status OK with no other field. -/
def State.respondOk (s : State) : State :=
  s.respond .ok none none none

/-- TAKING A FAULT (R189): FAULT gets the code, no other state changes, and the response is
`status = FAULT` with no other field. There is no vector, saved pc or mode to change. -/
def State.raiseFault (s : State) (c : FaultCode) : State :=
  State.respond { s with fault := c.code } .fault none none none

/-- THE RETURN FROM A FAULT (R191, R210): reset is the only way to clear FAULT. It sets the block's
state to R33's values and produces no response. The text and the moves still to come are the
host's and stay (log entry 3). -/
def State.assertReset (s : State) : State :=
  { s with accS := [], accActive := true, fault := 0, response := none }

/-- The sticky refusal (R190): no state changes, and the response carries the recorded fault. -/
def State.refuse (s : State) : State :=
  s.respond .fault none none none

/-- `Append(bits)`, the only write to the accumulator but NEW, ENCODE and reset (00_scope.md R11). -/
def State.append (s : State) (bits : List Bool) : State :=
  { s with accS := s.accS ++ bits }

/-- The accumulator emptied and made live (R100). -/
def State.fresh (s : State) : State :=
  { s with accS := [], accActive := true }

/-- The accumulator consumed; its bits are kept (R106, R160). -/
def State.consume (s : State) : State :=
  { s with accActive := false }

/-- The answer of FINISH_RESULT on the accumulator's bytes for `required` codewords; `mode` is what an
OK answer carries (R160, R166). -/
def State.answerFinish (s : State) (required : Nat) (mode : Option ModeField) : State :=
  match finishResult (bytesOf s.accS) (shiftOf s.accS) required with
  | none => s.respond .capacityExceeded none none none
  | some b => s.respond .ok mode (some b) none

/-- The host presents `text` with a command (R30). -/
def State.present (s : State) (text : List Byte) : State :=
  { s with text := text }

/-- The host issues a command word ahead of its other moves, with the text that stands at the text
port. -/
def State.issue (s : State) (w : Word) : State :=
  { s with pending := .command w s.text :: s.pending }

end Sys2Proof.Machine
end

