-- ==== Sys2Proof/Machine/Accumulator.lean ====
section
/-! DEFINITION. The bit accumulator: NEW, PUSH, PUSHB and PARTS (41_accumulator.md). -/

namespace Sys2Proof.Machine

/-- NEW (R100): legal on a live and on a consumed accumulator. The hint is not stored (R32). -/
def execNew (_hint : BitVec 16) (s : State) : Host.Outcome State Fault Refusal :=
  .next s.fresh.respondOk

/-- PUSH (R101). NOT_ACTIVE is checked before PUSH_OPERAND (R188). -/
def execPush (value : BitVec 16) (width : Nat) (s : State) : Host.Outcome State Fault Refusal :=
  .next
    (if s.accActive = false then s.raiseFault .notActive
     else if 2 ^ width ≤ value.toNat then s.raiseFault .pushOperand
     else (s.append (bitsOf width value.toNat)).respondOk)

/-- PUSHB (R105): zero bits up to the byte boundary, then the byte. -/
def execPushb (value : BitVec 8) (s : State) : Host.Outcome State Fault Refusal :=
  .next
    (if s.accActive = false then s.raiseFault .notActive
     else
      (s.append (zeros ((8 - shiftOf s.accS) % 8) ++ bitsOf 8 value.toNat)).respondOk)

/-- PARTS (R106): the bytes and the used bits of the last byte. -/
def execParts (s : State) : Host.Outcome State Fault Refusal :=
  .next
    (if s.accActive = false then s.raiseFault .notActive
     else
      s.consume.respond .ok none (some (bytesOf s.accS))
        (some (BitVec.ofNat 3 (shiftOf s.accS))))

end Sys2Proof.Machine
end

