-- ==== Sys2Proof/Machine/FinishEncode.lean ====
section
/-! DEFINITION. The terminator and padding filler and the whole encode operation: FINISH and ENCODE
(43_finish_and_encode.md). -/

namespace Sys2Proof.Machine

/-- FINISH (R160): consumes the accumulator whatever the outcome, and never changes its bits. -/
def execFinish (required : BitVec 16) (s : State) : Host.Outcome State Fault Refusal :=
  .next
    (if s.accActive = false then s.raiseFault .notActive
     else s.consume.answerFinish required.toNat none)

/-- ENCODE (R166). It does not read the accumulator it finds. -/
def execEncode (ver : BitVec 6) (ec : ECLevel) (s : State) : Host.Outcome State Fault Refusal :=
  .next
    (match bandOf ver.toNat with
     | none => s.raiseFault .versionRange
     | some band =>
       if validUtf8 s.text = false then s.raiseFault .textNotUtf8
       else
        let m := modeOf s.text
        ((s.fresh.append (headerBits band m s.text ++ dataBits m s.text)).consume).answerFinish
          (capacity ver.toNat ec) (some (modeField m)))

end Sys2Proof.Machine
end

