-- ==== Sys2Proof/Machine/ModeSelector.lean ====
section
/-! DEFINITION. The mode selector: ANALYZE (40_mode_selector.md). -/

namespace Sys2Proof.Machine

/-- ANALYZE (R90): a pure function of the text. It reads no accumulator and raises no fault. -/
def execAnalyze (s : State) : Host.Outcome State Fault Refusal :=
  .next (s.respond .ok (some (modeField (modeOf s.text))) none none)

end Sys2Proof.Machine
end

