-- ==== Sys2Proof/Machine/SegmentEncoders.lean ====
section
/-! DEFINITION. The header injector and the segment encoders: HDR, DNUM, DALNUM and DBYTE
(42_segment_encoders.md). -/

namespace Sys2Proof.Machine

/-- HDR (R132). The checks stand in the order of R188. -/
def execHdr (mode : Mode) (ver : BitVec 6) (s : State) : Host.Outcome State Fault Refusal :=
  .next
    (match bandOf ver.toNat with
     | none => s.raiseFault .versionRange
     | some band =>
       if s.accActive = false then s.raiseFault .notActive
       else match textFault mode s.text with
         | some c => s.raiseFault c
         | none => (s.append (headerBits band mode s.text)).respondOk)

/-- DNUM (R135). The check covers the whole text before anything is appended. -/
def execDnum (s : State) : Host.Outcome State Fault Refusal :=
  .next
    (if s.accActive = false then s.raiseFault .notActive
     else match textFault .numeric s.text with
       | some c => s.raiseFault c
       | none => (s.append (numericBits s.text)).respondOk)

/-- DALNUM (R137). Any bytes are taken; a byte outside the alphabet has value 0. -/
def execDalnum (s : State) : Host.Outcome State Fault Refusal :=
  .next
    (if s.accActive = false then s.raiseFault .notActive
     else (s.append (alnumBits s.text)).respondOk)

/-- DBYTE (R139). Any bytes are taken, each as an 8-bit field. -/
def execDbyte (s : State) : Host.Outcome State Fault Refusal :=
  .next
    (if s.accActive = false then s.raiseFault .notActive
     else (s.append (byteBits s.text)).respondOk)

end Sys2Proof.Machine
end

