-- ==== Sys2Proof/Machine/Dispatch.lean ====
section
/-! DEFINITION. The meaning of every command: one arm per constructor of Instr. -/

namespace Sys2Proof.Machine

def exec (i : Instr) (s : State) : Host.Outcome State Fault Refusal :=
  match i with
  | .new hint => Sys2Proof.Machine.execNew hint s
  | .push value width => Sys2Proof.Machine.execPush value width s
  | .pushb value => Sys2Proof.Machine.execPushb value s
  | .parts => Sys2Proof.Machine.execParts s
  | .analyze => Sys2Proof.Machine.execAnalyze s
  | .hdr mode ver => Sys2Proof.Machine.execHdr mode ver s
  | .dnum => Sys2Proof.Machine.execDnum s
  | .dalnum => Sys2Proof.Machine.execDalnum s
  | .dbyte => Sys2Proof.Machine.execDbyte s
  | .finish required => Sys2Proof.Machine.execFinish required s
  | .encode ver ec => Sys2Proof.Machine.execEncode ver ec s

end Sys2Proof.Machine
end

