-- ==== Sys2Proof/Machine/Perform.lean ====
section
/-! DEFINITION. Performing one command word, and one move of the host (60_exceptions.md R188, R190;
70_reset_and_hazards.md R210, R211). -/

namespace Sys2Proof.Machine

/-- One command word, in the order of R188: the sticky refusal first, the word not decoded (R190);
then ILLEGAL_COMMAND (R182); then the command's own rule. -/
def perform (w : Word) (s : State) : Host.Outcome State Fault Refusal :=
  if s.fault ≠ 0 then .next s.refuse
  else match decode w with
    | .illegal _ => .next (s.raiseFault .illegalCommand)
    | .command i => exec i s

/-- The next move of the host: a command is performed on the text presented with it; reset takes
effect between commands (R210); with no move to come the block is idle and holds its state
(R199, R211). -/
def advance (s : State) : Host.Outcome State Fault Refusal :=
  match s.pending with
  | [] => .next s
  | .reset :: rest => .next (State.assertReset { s with pending := rest })
  | .command w text :: rest => perform w (State.present { s with pending := rest } text)

end Sys2Proof.Machine
end

