-- ==== Sys2Proof/Machine/Step.lean ====
section
/-! DEFINITION. One step of the machine, and the host placing a command at its command port. -/

namespace Sys2Proof.Machine

/-- One step: the next move of the host (00_scope.md R6: each command is one atomic step). -/
def step (s : State) : Host.Outcome State Fault Refusal :=
  advance s

/-- `s` with the word `w` as the host's next command. The block fetches nothing: commands arrive on
the command port (R21), so this stands for the host issuing the word (log entry 8). -/
def State.withFetchWord (s : State) (nbits w : Nat) : State :=
  s.issue (BitVec.ofNat 32 (w % 2 ^ nbits))

end Sys2Proof.Machine
end

