-- ==== Sys2Proof/Machine/Assembler.lean ====
section
/-! DEFINITION. The assembler and its pseudo-instructions (30_encoding.md R80, R81): what a program
text has the host issue. It has no effect on the block (92_eei_decisions.md D26). -/

namespace Sys2Proof.Machine

/-- The pseudo-instructions (R81). -/
inductive Pseudo where
  /-- `NEW` with no operand. -/
  | newBare
  /-- `PUSHZ w`. -/
  | pushz (width : Nat)
  /-- `SEG mode, ver`. -/
  | seg (mode : Mode) (ver : BitVec 6)
  deriving DecidableEq, Repr

/-- The data command of a mode (R81). -/
def dataCommand : Mode → Instr
  | .numeric => .dnum
  | .alphanumeric => .dalnum
  | .byte => .dbyte

/-- The commands a pseudo-instruction stands for, in order (R81). -/
def expandPseudo : Pseudo → List Instr
  | .newBare => [.new 0]
  | .pushz width => [.push 0 width]
  | .seg mode ver => [.hdr mode ver, dataCommand mode]

/-- One line of a program (R80; `.word` as in 95_test_vectors.md P5). -/
inductive AsmLine where
  | command (i : Instr)
  | pseudo (p : Pseudo)
  | text (t : List Byte)
  | word (w : Word)
  deriving DecidableEq, Repr

/-- The moves a program has the host make: each command with the text of the last `.text` line before
it, and `t` before the first (R80). -/
def assembleFrom (t : List Byte) : List AsmLine → List HostMove
  | [] => []
  | .command i :: rest => .command (encode i) t :: assembleFrom t rest
  | .pseudo p :: rest =>
    ((expandPseudo p).map fun i => HostMove.command (encode i) t) ++ assembleFrom t rest
  | .text t' :: rest => assembleFrom t' rest
  | .word w :: rest => .command w t :: assembleFrom t rest

/-- The UTF-8 bytes of a Unicode scalar value (RFC 3629; R131). -/
def utf8Encode (c : Nat) : List Byte :=
  if c < 0x80 then [BitVec.ofNat 8 c]
  else if c < 0x800 then [BitVec.ofNat 8 (0xC0 + c / 64), BitVec.ofNat 8 (0x80 + c % 64)]
  else if c < 0x10000 then
    [BitVec.ofNat 8 (0xE0 + c / 4096), BitVec.ofNat 8 (0x80 + c / 64 % 64),
     BitVec.ofNat 8 (0x80 + c % 64)]
  else
    [BitVec.ofNat 8 (0xF0 + c / 262144), BitVec.ofNat 8 (0x80 + c / 4096 % 64),
     BitVec.ofNat 8 (0x80 + c / 64 % 64), BitVec.ofNat 8 (0x80 + c % 64)]

/-- The value of a hexadecimal digit. -/
def hexDigit (c : Char) : Option Nat :=
  if '0'.toNat ≤ c.toNat ∧ c.toNat ≤ '9'.toNat then some (c.toNat - '0'.toNat)
  else if 'a'.toNat ≤ c.toNat ∧ c.toNat ≤ 'f'.toNat then some (c.toNat - 'a'.toNat + 10)
  else if 'A'.toNat ≤ c.toNat ∧ c.toNat ≤ 'F'.toNat then some (c.toNat - 'A'.toNat + 10)
  else none

/-- Digits in a base, after the value read so far. -/
def digitsFrom (base n : Nat) : List Char → Option Nat
  | [] => some n
  | c :: rest =>
    match hexDigit c with
    | none => none
    | some d => if d < base then digitsFrom base (base * n + d) rest else none

/-- A number, decimal or hexadecimal with `0x` (R80). -/
def parseNumber : List Char → Option Nat
  | [] => none
  | '0' :: 'x' :: c :: rest => digitsFrom 16 0 (c :: rest)
  | c :: rest => digitsFrom 10 0 (c :: rest)

/-- A number below a bound. -/
def parseBelow (bound : Nat) (cs : List Char) : Option Nat :=
  match parseNumber cs with
  | none => none
  | some n => if n < bound then some n else none

/-- A mode operand (R80). -/
def parseMode : List Char → Option Mode
  | ['N'] => some .numeric
  | ['A'] => some .alphanumeric
  | ['B'] => some .byte
  | _ => none

/-- A level operand (R80). -/
def parseLevel : List Char → Option ECLevel
  | ['L'] => some .L
  | ['M'] => some .M
  | ['Q'] => some .Q
  | ['H'] => some .H
  | _ => none

/-- A blank character. -/
def isBlank (c : Char) : Bool :=
  c == ' ' || c == '\t' || c == '\r'

/-- The characters without the blanks at both ends. -/
def trimBlanks (cs : List Char) : List Char :=
  ((cs.dropWhile isBlank).reverse.dropWhile isBlank).reverse

/-- The characters before a comment (R80). -/
def beforeComment (cs : List Char) : List Char :=
  cs.takeWhile (· != ';')

/-- A width operand, 1 to 16 (R74). -/
def parseWidth (cs : List Char) : Option Nat :=
  match parseBelow 17 cs with
  | some (w + 1) => some (w + 1)
  | _ => none

/-- A version operand: any number its 6-bit field holds (R78). -/
def parseVersion (cs : List Char) : Option (BitVec 6) :=
  (parseBelow 64 cs).map (BitVec.ofNat 6)

/-- A line from its mnemonic and its operands (R80, R81). A line the table has no form for is none. -/
def parseForm (mnemonic : String) (operands : List (List Char)) : Option AsmLine :=
  match mnemonic, operands with
  | "NEW", [] => some (.pseudo .newBare)
  | "NEW", [h] => (parseBelow 65536 h).map fun n => .command (.new (BitVec.ofNat 16 n))
  | "PUSH", [v, w] =>
    match parseBelow 65536 v, parseWidth w with
    | some n, some k => some (.command (.push (BitVec.ofNat 16 n) k))
    | _, _ => none
  | "PUSHB", [v] => (parseBelow 256 v).map fun n => .command (.pushb (BitVec.ofNat 8 n))
  | "PARTS", [] => some (.command .parts)
  | "ANALYZE", [] => some (.command .analyze)
  | "HDR", [m, v] =>
    match parseMode m, parseVersion v with
    | some mode, some ver => some (.command (.hdr mode ver))
    | _, _ => none
  | "DNUM", [] => some (.command .dnum)
  | "DALNUM", [] => some (.command .dalnum)
  | "DBYTE", [] => some (.command .dbyte)
  | "FINISH", [r] => (parseBelow 65536 r).map fun n => .command (.finish (BitVec.ofNat 16 n))
  | "ENCODE", [v, e] =>
    match parseVersion v, parseLevel e with
    | some ver, some ec => some (.command (.encode ver ec))
    | _, _ => none
  | "PUSHZ", [w] => (parseWidth w).map fun k => .pseudo (.pushz k)
  | "SEG", [m, v] =>
    match parseMode m, parseVersion v with
    | some mode, some ver => some (.pseudo (.seg mode ver))
    | _, _ => none
  | ".word", [w] => (parseBelow (2 ^ 32) w).map fun n => .word (BitVec.ofNat 32 n)
  | _, _ => none

/-- The bytes of a quoted text up to its closing quote, `\xHH` one byte each, and what follows it (R80).
R80 says nothing of any other backslash. DESIGN CHOICE (log entry 20): `\x` and two characters that
are not both hexadecimal digits refuse the line; every other backslash stands for itself, before a
quote too, which then closes the text. -/
def parseQuoted : List Char → Option (List Byte × List Char)
  | [] => none
  | '"' :: rest => some ([], rest)
  | '\\' :: 'x' :: h :: l :: rest =>
    match hexDigit h, hexDigit l, parseQuoted rest with
    | some a, some b, some (bytes, tail) => some (BitVec.ofNat 8 (16 * a + b) :: bytes, tail)
    | _, _, _ => none
  | c :: rest =>
    match parseQuoted rest with
    | some (bytes, tail) => some (utf8Encode c.toNat ++ bytes, tail)
    | none => none

/-- The operands of a line, separated by commas. -/
def parseOperands (cs : List Char) : List (List Char) :=
  if trimBlanks cs = [] then [] else (cs.splitOn ',').map trimBlanks

/-- A `.text` line from what follows the directive. -/
def parseText (cs : List Char) : Option AsmLine :=
  match cs.dropWhile isBlank with
  | '"' :: rest =>
    match parseQuoted rest with
    | some (bytes, tail) => if trimBlanks (beforeComment tail) = [] then some (.text bytes) else none
    | none => none
  | _ => none

/-- One line of a program; `some none` is a line with no command (R80, log entry 20). -/
def parseLine (cs : List Char) : Option (Option AsmLine) :=
  let cs := cs.dropWhile isBlank
  if cs.take 5 = ".text".toList then (parseText (cs.drop 5)).map some
  else
    let cs := trimBlanks (beforeComment cs)
    if cs = [] then some none
    else
      let mnemonic := cs.takeWhile fun c => !isBlank c
      (parseForm (String.ofList mnemonic) (parseOperands (cs.drop mnemonic.length))).map some

/-- The lines of a program, none if one line has no form. -/
def parseLines : List (List Char) → Option (List AsmLine)
  | [] => some []
  | l :: rest =>
    match parseLine l, parseLines rest with
    | some (some a), some as => some (a :: as)
    | some none, some as => some as
    | _, _ => none

/-- The host moves of a program text, one command per line (R80), no text before the first `.text`. -/
def assemble (program : String) : Option (List HostMove) :=
  (parseLines (program.toList.splitOn '\n')).map (assembleFrom [])

end Sys2Proof.Machine
end

