-- ==== Sys2Proof/Machine/ByteForm.lean ====
section
/-! DEFINITION. The accumulator as its byte view, and PUSH in its byte-level form (10_state.md R22 to
R25; 41_accumulator.md R102 to R104). The step uses the bit-list form of R101; the spec allows
either, and that the two agree is a statement. -/

namespace Sys2Proof.Machine

/-- The views BUF and SHIFT of an accumulator (R24, R25). -/
structure ByteAcc where
  buf : List Byte
  shift : Nat
  deriving DecidableEq, Repr

/-- The views of a bit list. -/
def viewOf (bits : List Bool) : ByteAcc :=
  { buf := bytesOf bits, shift := shiftOf bits }

/-- `x & 0xFF` as a byte. -/
def lowByte (x : Nat) : Byte :=
  BitVec.ofNat 8 x

/-- `BUF[LEN-1] <- BUF[LEN-1] | x`. -/
def orIntoLast (buf : List Byte) (x : Nat) : List Byte :=
  match buf.getLast? with
  | none => []
  | some last => buf.dropLast ++ [last ||| lowByte x]

/-- R102's algorithm: PUSH of the `w`-bit value `v` on the byte view. -/
def pushBytes (a : ByteAcc) (v w : Nat) : ByteAcc :=
  let total := w + a.shift
  { buf :=
      if a.shift = 0 then
        if w ≤ 8 then a.buf ++ [lowByte (v <<< (8 - w))]
        else a.buf ++ [lowByte (v >>> (w - 8)), lowByte (v <<< (16 - w))]
      else if total ≤ 8 then orIntoLast a.buf (v <<< (8 - total))
      else if total ≤ 16 then
        orIntoLast a.buf (v >>> (total - 8)) ++ [lowByte (v <<< (16 - total))]
      else
        orIntoLast a.buf (v >>> (total - 8)) ++
          [lowByte (v >>> (total - 16)), lowByte (v <<< (24 - total))]
    shift := total % 8 }

/-- The three branches of R103. -/
inductive PushBranch where
  | fits
  | oneBoundary
  | twoBoundaries
  deriving DecidableEq, Repr

/-- Which branch a (SHIFT, width) pair takes (R103). -/
def branchOf (shift w : Nat) : PushBranch :=
  if w + shift ≤ 8 then .fits
  else if w + shift ≤ 16 then .oneBoundary
  else .twoBoundaries

/-- The bytes one PUSH adds to BUF (R104). -/
def bytesAdded (shift w : Nat) : Nat :=
  match branchOf shift w with
  | .fits => if shift = 0 then 1 else 0
  | .oneBoundary => if shift = 0 then 2 else 1
  | .twoBoundaries => 2

end Sys2Proof.Machine
end

