-- ==== Sys2Proof/Safety.lean ====
section
/-! DEFINITION. The terms the statements use: what a fault entry leaves, when a fault applies, the
invariant of the states a run reaches, the segment length, and the tables of the spec in the form its
text gives them, apart from the form the meanings compute with. -/

namespace Sys2Proof.Machine

/-- A response with no mode, bytes or shift (10_state.md R29). -/
def bareResponse (status : Status) (fault : BitVec 4) (active : Bool) : Response :=
  { status := status, fault := fault, active := active, mode := none, bytes := none, shift := none }

/-- What the entry of the fault with code `c` leaves (60_exceptions.md R189): FAULT holds the code, the
response is `status = FAULT`, and nothing else changes. -/
def faulted (s : State) (c : BitVec 4) : State :=
  { s with fault := c, response := some (bareResponse .fault c s.accActive) }

/-- `t` is `s` with `n` bits appended and a plain OK response: the earlier bits stand where they
stood, and no other state changes. -/
def Appends (s t : State) (n : Nat) : Prop :=
  t = { s with accS := t.accS, response := some (bareResponse .ok s.fault true) } ∧
    t.accS.length = s.accS.length + n ∧ t.accS.take s.accS.length = s.accS

/-- The `w` bits at bit offset `off`, read as an unsigned number. -/
def fieldAt (bits : List Bool) (off w : Nat) : Nat :=
  natOfBits ((bits.drop off).take w)

/-- The bits the format of an opcode marks `0` (30_encoding.md R71); none for a reserved opcode. -/
def markedZero (op : Nat) : Word :=
  match op with
  | 0x1 => 0x0FFF0000
  | 0x2 => 0x0FF00000
  | 0x3 => 0x0FFFFF00
  | 0x4 => 0x0FFFFFFF
  | 0x5 => 0x0FFFFFFF
  | 0x6 => 0x0FFFFCC0
  | 0x7 => 0x0FFFFFFF
  | 0x8 => 0x0FFFFFFF
  | 0x9 => 0x0FFFFFFF
  | 0xA => 0x0FFF0000
  | 0xB => 0x0FFFFCC0
  | _ => 0

/-- A byte in 0x30..0x39 (00_scope.md R12). -/
def IsDigitByte (b : Byte) : Prop :=
  0x30 ≤ b.toNat ∧ b.toNat ≤ 0x39

/-- The table of 30_encoding.md R65, by byte: the value of a symbol, none for another byte. -/
def alnumOf (b : Byte) : Option Nat :=
  if 0x30 ≤ b.toNat ∧ b.toNat ≤ 0x39 then some (b.toNat - 0x30)
  else if 0x41 ≤ b.toNat ∧ b.toNat ≤ 0x5A then some (b.toNat - 0x41 + 10)
  else match b.toNat with
    | 0x20 => some 36
    | 0x24 => some 37
    | 0x25 => some 38
    | 0x2A => some 39
    | 0x2B => some 40
    | 0x2D => some 41
    | 0x2E => some 42
    | 0x2F => some 43
    | 0x3A => some 44
    | _ => none

/-- The digit value of byte `k` of a text. -/
def digitAt (text : List Byte) (k : Nat) : Nat :=
  (text.getD k 0).toNat - 0x30

/-- The alphanumeric value of byte `k` of a text, 0 for a byte outside the alphabet (R65). -/
def alnumAt (text : List Byte) (k : Nat) : Nat :=
  (alnumOf (text.getD k 0)).getD 0

/-- The rows of 30_encoding.md R62, by the version ranges of R63. -/
def countWidthOf (ver : Nat) (m : Mode) : Nat :=
  match m with
  | .numeric => if ver ≤ 9 then 10 else if ver ≤ 26 then 12 else 14
  | .alphanumeric => if ver ≤ 9 then 9 else if ver ≤ 26 then 11 else 13
  | .byte => if ver ≤ 9 then 8 else 16

/-- The indicator and the code of a mode as R61 and R72 list them. -/
def modeNumbers : Mode → ModeField
  | .numeric => { code := 0b00, indicator := 0b0001 }
  | .alphanumeric => { code := 0b01, indicator := 0b0010 }
  | .byte => { code := 0b10, indicator := 0b0100 }

/-- COUNT(mode, T) of 42_segment_encoders.md R130, the scalar count taken on the bytes that are not
continuation bytes. -/
def countOf (m : Mode) (text : List Byte) : Nat :=
  match m with
  | .numeric => text.length
  | .alphanumeric => (text.filter fun b => b.toNat / 64 ≠ 0b10).length
  | .byte => (text.filter fun b => b.toNat / 64 ≠ 0b10).length

/-- The data bits of a mode for a text of `n` bytes (R135, R137, R139). -/
def dataLength (m : Mode) (n : Nat) : Nat :=
  match m with
  | .numeric => 10 * (n / 3) + (if n % 3 = 1 then 4 else if n % 3 = 2 then 7 else 0)
  | .alphanumeric => 11 * (n / 2) + 6 * (n % 2)
  | .byte => 8 * n

/-- SEGBITS (42_segment_encoders.md R140). -/
def segBits (m : Mode) (ver : Nat) (text : List Byte) : Nat :=
  4 + countWidthOf ver m + dataLength m text.length

/-- The free bits of the last byte of a content of `n` bits (43_finish_and_encode.md R163). -/
def freeAfter (n : Nat) : Nat :=
  if n % 8 = 0 then 0 else 8 - n % 8

/-- How many terminator bytes follow a content of `n` bits in `r` codewords (R162). -/
def terminatorBytes (n r : Nat) : Nat :=
  if freeAfter n < 4 ∧ (n + 7) / 8 < r then 1 else 0

/-- A version in 1..40 (30_encoding.md R78). -/
def LegalVersion (ver : BitVec 6) : Prop :=
  1 ≤ ver.toNat ∧ ver.toNat ≤ 40

/-- The version operand of a command, if it has one (R78). -/
def versionOperand : Instr → Option (BitVec 6)
  | .new _ => none
  | .push _ _ => none
  | .pushb _ => none
  | .parts => none
  | .analyze => none
  | .hdr _ ver => some ver
  | .dnum => none
  | .dalnum => none
  | .dbyte => none
  | .finish _ => none
  | .encode ver _ => some ver

/-- The commands that need a live accumulator (60_exceptions.md R184). -/
def needsActive : Instr → Bool
  | .new _ => false
  | .push _ _ => true
  | .pushb _ => true
  | .parts => true
  | .analyze => false
  | .hdr _ _ => true
  | .dnum => true
  | .dalnum => true
  | .dbyte => true
  | .finish _ => true
  | .encode _ _ => false

/-- The commands that need valid UTF-8 (R185). -/
def needsUtf8 : Instr → Bool
  | .new _ => false
  | .push _ _ => false
  | .pushb _ => false
  | .parts => false
  | .analyze => false
  | .hdr mode _ => mode != .numeric
  | .dnum => false
  | .dalnum => false
  | .dbyte => false
  | .finish _ => false
  | .encode _ _ => true

/-- The commands that need a text of digits (R187). -/
def needsDigits : Instr → Bool
  | .new _ => false
  | .push _ _ => false
  | .pushb _ => false
  | .parts => false
  | .analyze => false
  | .hdr mode _ => mode == .numeric
  | .dnum => true
  | .dalnum => false
  | .dbyte => false
  | .finish _ => false
  | .encode _ _ => false

/-- The commands that read the text (10_state.md R30). -/
def readsText : Instr → Bool
  | .new _ => false
  | .push _ _ => false
  | .pushb _ => false
  | .parts => false
  | .analyze => true
  | .hdr _ _ => true
  | .dnum => true
  | .dalnum => true
  | .dbyte => true
  | .finish _ => false
  | .encode _ _ => true

/-- The commands that replace the accumulator's bits instead of keeping them at the front (20_memory.md
R40; 43_finish_and_encode.md R166). -/
def replacesBits : Instr → Bool
  | .new _ => true
  | .push _ _ => false
  | .pushb _ => false
  | .parts => false
  | .analyze => false
  | .hdr _ _ => false
  | .dnum => false
  | .dalnum => false
  | .dbyte => false
  | .finish _ => false
  | .encode _ _ => true

/-- The fault `c` applies to the command `i` in the state `s` (60_exceptions.md R183 to R187).
ILLEGAL_COMMAND is about the word, so it applies to no decoded command. -/
def FaultApplies (c : FaultCode) (i : Instr) (s : State) : Prop :=
  match c with
  | .illegalCommand => False
  | .versionRange => ∃ ver, versionOperand i = some ver ∧ (ver.toNat = 0 ∨ 40 < ver.toNat)
  | .notActive => needsActive i = true ∧ s.accActive = false
  | .textNotUtf8 => needsUtf8 i = true ∧ validUtf8 s.text = false
  | .pushOperand => ∃ value width, i = .push value width ∧ 2 ^ width ≤ value.toNat
  | .nonDigit => needsDigits i = true ∧ ∃ b ∈ s.text, ¬ IsDigitByte b

/-- What the last response says about the state it was given in (R29, R180, R189; the finished bytes
begin with the accumulator's own, 43_finish_and_encode.md R165). -/
structure ResponseFits (s : State) (r : Response) : Prop where
  fault_is_register : r.fault = s.fault
  active_is_state : r.active = s.accActive
  fault_iff_recorded : r.status = .fault ↔ s.fault ≠ 0
  only_ok_carries : r.status ≠ .ok → r.mode = none ∧ r.bytes = none ∧ r.shift = none
  overflow_consumes : r.status = .capacityExceeded → s.accActive = false
  bytes_begin_with_buffer :
    ∀ b, r.bytes = some b → s.accActive = false ∧ bytesOf s.accS <+: b
  shift_is_view :
    ∀ n, r.shift = some n → r.bytes = some (bytesOf s.accS) ∧ n.toNat = s.accS.length % 8
  mode_is_legal : ∀ m, r.mode = some m → ∃ mode, m = modeNumbers mode

/-- The invariant of the block: FAULT holds a code of R181 (7 to 15 are never written), and the last
response fits the state. -/
structure Inv (s : State) : Prop where
  fault_code : s.fault.toNat ≤ 6
  response_fits : ∀ r, s.response = some r → ResponseFits s r

/-- The direct commands that append (00_scope.md R8). ENCODE is not one of them. -/
def appendsDirectly : Instr → Bool
  | .new _ => false
  | .push _ _ => true
  | .pushb _ => true
  | .parts => false
  | .analyze => false
  | .hdr _ _ => true
  | .dnum => true
  | .dalnum => true
  | .dbyte => true
  | .finish _ => false
  | .encode _ _ => false

/-- The host's next move keeps its duties 1 and 2 (70_reset_and_hazards.md R213): the text of a command
that reads it is at most MAX_TEXT_LEN long, and LEN is at most MAX_BUF_BYTES after a direct command
that appends. A word refused under a recorded fault reads and appends nothing, so neither duty is
about it; a command that faults appends nothing, so duty 2 is not about it (log entry 10). -/
def NextMoveMeetsDuties (s : State) : Prop :=
  ∀ (w : Word) (text : List Byte) (rest : List HostMove) (i : Instr),
    s.pending = .command w text :: rest → s.fault = 0 → decode w = .command i →
    (readsText i = true → text.length ≤ Config.maxTextLen) ∧
    (appendsDirectly i = true → ∀ t, step s = .next t → t.fault = 0 →
      byteLen t.accS ≤ Config.maxBufBytes)

/-- Every move of the next `n` steps keeps the host's duties. The block does not check this. -/
def HostDutiesMet : Nat → State → Prop
  | 0, _ => True
  | n + 1, s => NextMoveMeetsDuties s ∧ ∀ t, step s = .next t → HostDutiesMet n t

/-- A live accumulator is within MAX_BUF_BYTES. What ENCODE leaves is consumed, and R8 does not bound
it. -/
def LiveBufferBounded (s : State) : Prop :=
  s.accActive = true → byteLen s.accS ≤ Config.maxBufBytes

end Sys2Proof.Machine
end

