-- ==== Sys2Proof/Certificates/Slice0/Obligations.lean ====
section
/-! DEFINITION. The statements for the provers. Each docstring names the rule of spec/ it formalises. -/

open Sys2Proof Sys2Proof.Machine

/-! ## Encoding -/

/-- Decoding the word of a well-formed command gives the command back (30_encoding.md R79: the decoder
is an injection, every field of every format goes into the term). -/
def Obligations.DecodeOfEncodeIsTheInstruction : Prop :=
  ∀ i : Instr, WellFormed i = true → decode (encode i) = .command i

/-- A word that decodes is the encoding of its command, which is well-formed: no bit of the word is
dropped (30_encoding.md R79). -/
def Obligations.DecodedWordIsTheEncodingOfItsCommand : Prop :=
  ∀ (w : Word) (i : Instr), decode w = .command i → WellFormed i = true ∧ encode i = w

/-- 60_exceptions.md R182: which words spell no command, and what performing one does. -/
def Obligations.IllegalWordsAreTheReservedOnesAndFault : Prop :=
  ∀ w : Word,
    ((∃ why, decode w = .illegal why) ↔
      (w.toNat / 2 ^ 28 = 0x0 ∨ 0xC ≤ w.toNat / 2 ^ 28) ∨
      w &&& markedZero (w.toNat / 2 ^ 28) ≠ 0 ∨
      (w.toNat / 2 ^ 28 = 0x6 ∧ w.getLsbD 9 = true ∧ w.getLsbD 8 = true)) ∧
    ∀ (s : State) (why : Illegal), s.fault = 0 → decode w = .illegal why →
      perform w s = .next (faulted s 1)

/-- Words written out from the formats of 30_encoding.md R71, one for each opcode, with their
commands. -/
def Obligations.WrittenOutWordsDecode : Prop :=
  decode 0b0001_000000000000_1111111111111110 = .command (.new 0xFFFE) ∧
  decode 0b0010_00000000_1001_0000001111100111 = .command (.push 999 10) ∧
  decode 0b0011_00000000000000000000_11101100 = .command (.pushb 0xEC) ∧
  decode 0b0100_0000000000000000000000000000 = .command .parts ∧
  decode 0b0101_0000000000000000000000000000 = .command .analyze ∧
  decode 0b0110_000000000000000000_01_00_011011 = .command (.hdr .alphanumeric 27) ∧
  decode 0b0111_0000000000000000000000000000 = .command .dnum ∧
  decode 0b1000_0000000000000000000000000000 = .command .dalnum ∧
  decode 0b1001_0000000000000000000000000000 = .command .dbyte ∧
  decode 0b1010_000000000000_0000000000001001 = .command (.finish 9) ∧
  decode 0b1011_000000000000000000_11_00_000100 = .command (.encode 4 .H)

/-! ## The step, reset and faults -/

/-- A step on a command word of the host performs that word on the text presented with it, the move
taken off the port; with no fault recorded and a word that decodes to `i`, that is `exec i`
(30_encoding.md R79; 10_state.md R30, R34; the ports in State are the model's choice, log entries 1
and 16). -/
def Obligations.StepPerformsTheDecodedCommand : Prop :=
  ∀ (s : State) (w : Word) (text : List Byte) (rest : List HostMove),
    s.pending = .command w text :: rest →
    step s = perform w { s with pending := rest, text := text } ∧
    ∀ i : Instr, s.fault = 0 → decode w = .command i →
      step s = exec i { s with pending := rest, text := text }

/-- 60_exceptions.md R190: while a fault is recorded every word is refused, undecoded. -/
def Obligations.StickyFaultRefusesEveryWord : Prop :=
  ∀ (s : State) (w : Word), s.fault ≠ 0 →
    perform w s = .next
      { s with response := some (bareResponse .fault s.fault s.accActive) }

/-- 10_state.md R33: the values the spec gives the block's state after reset. -/
def Obligations.ResetLeavesAnEmptyLiveAccumulatorAndNoFault : Prop :=
  State.reset.accS = [] ∧ byteLen State.reset.accS = 0 ∧ shiftOf State.reset.accS = 0 ∧
    State.reset.accActive = true ∧ State.reset.fault = 0

/-- 70_reset_and_hazards.md R210, with reset as a move of the host (the model's choice, log entry 3):
it sets the block's state, leaves no response, and is the only move that clears FAULT. -/
def Obligations.ResetMoveRestoresTheBlockAndAloneClearsFault : Prop :=
  (∀ (s : State) (rest : List HostMove), s.pending = .reset :: rest →
    step s = .next
      { s with pending := rest, accS := [], accActive := true, fault := 0, response := none }) ∧
  ∀ s t : State, step s = .next t → s.fault ≠ 0 → t.fault = 0 →
    ∃ rest, s.pending = .reset :: rest

/-- With no move of the host to come the block holds its state (60_exceptions.md R199;
70_reset_and_hazards.md R211; that a step may find no move is the model's choice, log entry 2). -/
def Obligations.IdleBlockHoldsItsState : Prop :=
  ∀ s : State, s.pending = [] → step s = .next s

/-- The block never stops, and every command gives a response (93_implementation_defined.md, after
X20: "Every command on every state and every T gives a response"; the ports are in State by the
model's choice, log entry 1). -/
def Obligations.EveryStepGoesOnAndEveryCommandResponds : Prop :=
  ∀ s : State, ∃ t, step s = .next t ∧
    ∀ (w : Word) (text : List Byte) (rest : List HostMove),
      s.pending = .command w text :: rest →
      t.pending = rest ∧ t.text = text ∧
        ∃ r, t.response = some r ∧ r.fault = t.fault ∧ r.active = t.accActive

/-- 20_memory.md R56: the response and the next state of a command are a function of the block's state
before it, the word and the text; nothing else that stands at the ports has a part in them. -/
def Obligations.CommandOutcomeIsAFunctionOfStateWordAndText : Prop :=
  ∀ (s u : State) (w : Word),
    s.accS = u.accS → s.accActive = u.accActive → s.fault = u.fault → s.text = u.text →
    ∃ t v, perform w s = .next t ∧ perform w u = .next v ∧ t.accS = v.accS ∧
      t.accActive = v.accActive ∧ t.fault = v.fault ∧ t.response = v.response

/-- 60_exceptions.md R189: a command that raises a fault changes FAULT and gives the fault's response,
and leaves every bit of the accumulator, its liveness and the ports as they were. -/
def Obligations.FaultEntryIsPrecise : Prop :=
  ∀ (s t : State) (w : Word), s.fault = 0 → perform w s = .next t → t.fault ≠ 0 →
    t = { s with
          fault := t.fault, response := some (bareResponse .fault t.fault s.accActive) }

/-- 60_exceptions.md R188: the recorded fault first, then ILLEGAL_COMMAND, then the applicable fault
with the lowest code; no fault where none applies. -/
def Obligations.LowestApplicableFaultIsReported : Prop :=
  ∀ (s : State) (w : Word), ∃ t, perform w s = .next t ∧
    (s.fault ≠ 0 → t.fault = s.fault) ∧
    (s.fault = 0 → ∀ why, decode w = .illegal why → t.fault = 1) ∧
    (s.fault = 0 → ∀ i, decode w = .command i →
      (∀ c, FaultApplies c i s → (∀ d, FaultApplies d i s → c.code ≤ d.code) →
        t.fault = c.code) ∧
      ((∀ c, ¬ FaultApplies c i s) → t.fault = 0))

/-- The first fault is kept: while no reset comes, no number of steps changes the recorded fault or
the accumulator (60_exceptions.md R190, R191). Reset as a pending host move is the model's choice (log
entry 3). -/
def Obligations.RecordedFaultOutlastsEveryRunWithoutReset : Prop :=
  ∀ (n : Nat) (s t : State), s.fault ≠ 0 → HostMove.reset ∉ s.pending →
    Host.Core.run Sys2Proof.core n s = .next t →
    t.fault = s.fault ∧ t.accS = s.accS ∧ t.accActive = s.accActive

/-- The invariant that every step keeps, from every state that has it: FAULT holds a code 0 to 6, the
last response agrees with FAULT and ACC.active, and the bytes it carries begin with the
accumulator's (10_state.md R27, R29; 43_finish_and_encode.md R165). That the last response stands in
State (log entry 1) and that a reset removes it (log entry 3) is the model's choice, and the part
about the response rests on both. -/
def Obligations.StepKeepsTheBlockInvariant : Prop :=
  ∀ s t : State, Inv s → step s = .next t → Inv t

/-- The invariant holds right after reset: FAULT is 0 (10_state.md R33), and there is no response yet,
which is the model's choice (log entry 5), since R33 gives the response port no reset value. -/
def Obligations.BlockInvariantHoldsAtReset : Prop :=
  Inv State.reset

/-! ## The bit accumulator -/

/-- 41_accumulator.md R100. -/
def Obligations.NewGivesAnEmptyLiveAccumulator : Prop :=
  ∀ (hint : BitVec 16) (s : State),
    decode (0x10000000#32 ||| hint.setWidth 32) = .command (.new hint) ∧
    exec (.new hint) s = .next
      { s with accS := [], accActive := true, response := some (bareResponse .ok s.fault true) }

/-- 41_accumulator.md R101: the word, the two faults in their order, and the bits appended. -/
def Obligations.PushAppendsItsFieldMostSignificantBitFirst : Prop :=
  ∀ (value : BitVec 16) (width : Nat) (s : State), 1 ≤ width → width ≤ 16 →
    decode (0x20000000#32 ||| BitVec.ofNat 32 (width - 1) <<< 16 ||| value.setWidth 32) =
      .command (.push value width) ∧
    (s.accActive = false → exec (.push value width) s = .next (faulted s 3)) ∧
    (s.accActive = true → 2 ^ width ≤ value.toNat →
      exec (.push value width) s = .next (faulted s 5)) ∧
    (s.accActive = true → value.toNat < 2 ^ width →
      ∃ t, exec (.push value width) s = .next t ∧ Appends s t width ∧
        (∀ k < width,
          t.accS[s.accS.length + k]? = some (value.getLsbD (width - 1 - k))) ∧
        byteLen t.accS = (s.accS.length + width + 7) / 8 ∧
        shiftOf t.accS = (shiftOf s.accS + width) % 8)

/-- The byte-level form of PUSH computes the same BUF and SHIFT (41_accumulator.md R102, which the
spec derives from R101 and R25). -/
def Obligations.PushMeetsItsByteLevelForm : Prop :=
  ∀ (value : BitVec 16) (width : Nat) (s t : State), 1 ≤ width → width ≤ 16 →
    s.accActive = true → value.toNat < 2 ^ width → exec (.push value width) s = .next t →
    viewOf t.accS = pushBytes (viewOf s.accS) value.toNat width

/-- The bytes one PUSH adds, by the branch it takes (41_accumulator.md R103, R104, which the spec
derives). -/
def Obligations.PushAddsTheBytesOfItsBranch : Prop :=
  ∀ (value : BitVec 16) (width : Nat) (s t : State), 1 ≤ width → width ≤ 16 →
    s.accActive = true → value.toNat < 2 ^ width → exec (.push value width) s = .next t →
    (bytesOf t.accS).length =
      (bytesOf s.accS).length + bytesAdded (shiftOf s.accS) width

/-- The byte view and the shift determine the bits (10_state.md R22, which the spec derives from R23 to
R25). -/
def Obligations.BytesAndShiftDetermineTheBits : Prop :=
  ∀ bits bits' : List Bool, viewOf bits = viewOf bits' → bits = bits'

/-- The source's shift invariant (10_state.md R26, which the spec derives): after any sequence of
legal PUSH commands on an empty live accumulator the bit count is the sum of the widths. The words
stand as pending host moves, the model's choice (log entry 1). -/
def Obligations.PushSequenceHoldsTheSumOfItsWidths : Prop :=
  ∀ (pushes : List (BitVec 16 × Nat)) (text : List Byte) (s : State),
    (∀ p ∈ pushes, 1 ≤ p.2 ∧ p.2 ≤ 16 ∧ p.1.toNat < 2 ^ p.2) →
    s.fault = 0 → s.accActive = true → s.accS = [] →
    ∃ t, Host.Core.run Sys2Proof.core pushes.length
        { s with
          pending := pushes.map fun p => HostMove.command (encode (.push p.1 p.2)) text } =
        .next t ∧
      t.fault = 0 ∧ t.accActive = true ∧
      byteLen t.accS = ((pushes.map (·.2)).sum + 7) / 8 ∧
      shiftOf t.accS = (pushes.map (·.2)).sum % 8

/-- 41_accumulator.md R105: zero bits to the byte boundary, then the byte as a whole new byte. -/
def Obligations.PushbAppendsAWholeByte : Prop :=
  ∀ (value : BitVec 8) (s : State),
    decode (0x30000000#32 ||| value.setWidth 32) = .command (.pushb value) ∧
    (s.accActive = false → exec (.pushb value) s = .next (faulted s 3)) ∧
    (s.accActive = true →
      ∃ t, exec (.pushb value) s = .next t ∧
        Appends s t ((8 - s.accS.length % 8) % 8 + 8) ∧
        bytesOf t.accS = bytesOf s.accS ++ [value] ∧
        byteLen t.accS = byteLen s.accS + 1 ∧ shiftOf t.accS = 0)

/-- PUSHB is PUSH of 8 bits at SHIFT 0 and at no other SHIFT (70_reset_and_hazards.md R216 and the
corner cases of 41_accumulator.md R105, which the spec derives). -/
def Obligations.PushbIsPushOfEightBitsExactlyAtAByteBoundary : Prop :=
  ∀ (value : BitVec 8) (s : State), s.accActive = true →
    (exec (.pushb value) s = exec (.push (value.setWidth 16) 8) s ↔ s.accS.length % 8 = 0)

/-- 41_accumulator.md R106, the bytes spelled as 10_state.md R25 spells them. -/
def Obligations.PartsReturnsTheBytesAndConsumes : Prop :=
  ∀ s : State,
    decode 0x40000000#32 = .command .parts ∧
    (s.accActive = false → exec .parts s = .next (faulted s 3)) ∧
    (s.accActive = true →
      ∃ b : List Byte,
        exec .parts s = .next
          { s with
            accActive := false,
            response := some
              { status := .ok, fault := s.fault, active := false, mode := none, bytes := some b,
                shift := some (BitVec.ofNat 3 (s.accS.length % 8)) } } ∧
        b.length = (s.accS.length + 7) / 8 ∧
        ∀ i < b.length, ∀ j < 8,
          (b.getD i 0).getLsbD (7 - j) = s.accS.getD (8 * i + j) false)

/-- 41_accumulator.md R107: what consumes, what a consumed accumulator faults, what stays legal, and
NEW as the way back. -/
def Obligations.ConsumedAccumulatorFaultsUntilNew : Prop :=
  (∀ (i : Instr) (s t : State), s.fault = 0 →
    (i = .parts ∨ (∃ r, i = .finish r) ∨ ∃ ver ec, i = .encode ver ec) →
    exec i s = .next t → t.fault = 0 → t.accActive = false) ∧
  (∀ (i : Instr) (s : State), needsActive i = true → s.accActive = false →
    (∀ ver, versionOperand i = some ver → LegalVersion ver) →
    exec i s = .next (faulted s 3)) ∧
  (∀ (i : Instr) (s t : State), s.fault = 0 → needsActive i = false →
    exec i s = .next t → t.fault ≠ 3) ∧
  (∀ (hint : BitVec 16) (s t : State), exec (.new hint) s = .next t →
    t.accActive = true ∧ t.accS = [])

/-! ## The mode selector -/

/-- ANALYZE by the closed form of 40_mode_selector.md R91 (which the spec derives from R90's loop): the
response carries the mode, and nothing else changes. -/
def Obligations.AnalyzeAnswersTheMostGeneralModeRequired : Prop :=
  ∀ s : State,
    decode 0x50000000#32 = .command .analyze ∧
    ∃ m : Mode,
      exec .analyze s = .next
        { s with
          response := some
            { status := .ok, fault := s.fault, active := s.accActive,
              mode := some (modeNumbers m), bytes := none, shift := none } } ∧
      ((∃ b ∈ s.text, alnumOf b = none) → m = .byte) ∧
      ((∀ b ∈ s.text, alnumOf b ≠ none) → (∃ b ∈ s.text, ¬ IsDigitByte b) → m = .alphanumeric) ∧
      ((∀ b ∈ s.text, IsDigitByte b) → m = .numeric)

/-- What the selected mode guarantees (40_mode_selector.md R92, which the spec derives). -/
def Obligations.SelectedModeGuaranteesItsEncoder : Prop :=
  ∀ text : List Byte,
    (modeOf text = .numeric → ∀ b ∈ text, IsDigitByte b) ∧
    (modeOf text = .alphanumeric →
      validUtf8 text = true ∧ scalars text = text.length ∧
        ∀ b ∈ text, b.toNat < 0x80 ∧ alnumOf b = some (alnumValue b))

/-! ## The header and the segment encoders -/

/-- 42_segment_encoders.md R132 and R133, with the widths of 30_encoding.md R62. -/
def Obligations.HdrInjectsTheIndicatorAndTheTruncatedCount : Prop :=
  ∀ (mode : Mode) (ver : BitVec 6) (s : State),
    decode (0x60000000#32 ||| (modeNumbers mode).code.setWidth 32 <<< 8 ||| ver.setWidth 32) =
      .command (.hdr mode ver) ∧
    (¬ LegalVersion ver → exec (.hdr mode ver) s = .next (faulted s 2)) ∧
    (LegalVersion ver → s.accActive = false →
      exec (.hdr mode ver) s = .next (faulted s 3)) ∧
    (LegalVersion ver → s.accActive = true → mode = .numeric →
      (∃ b ∈ s.text, ¬ IsDigitByte b) → exec (.hdr mode ver) s = .next (faulted s 6)) ∧
    (LegalVersion ver → s.accActive = true → mode ≠ .numeric → validUtf8 s.text = false →
      exec (.hdr mode ver) s = .next (faulted s 4)) ∧
    (LegalVersion ver → s.accActive = true →
      (mode = .numeric → ∀ b ∈ s.text, IsDigitByte b) →
      (mode ≠ .numeric → validUtf8 s.text = true) →
      ∃ t, exec (.hdr mode ver) s = .next t ∧
        Appends s t (4 + countWidthOf ver.toNat mode) ∧
        fieldAt t.accS s.accS.length 4 = (modeNumbers mode).indicator.toNat ∧
        fieldAt t.accS (s.accS.length + 4) (countWidthOf ver.toNat mode) =
          countOf mode s.text % 2 ^ countWidthOf ver.toNat mode)

/-- 42_segment_encoders.md R135, with the fields of 30_encoding.md R64 read back from the bits. -/
def Obligations.DnumAppendsDigitTriplesAndRemainder : Prop :=
  ∀ s : State,
    decode 0x70000000#32 = .command .dnum ∧
    (s.accActive = false → exec .dnum s = .next (faulted s 3)) ∧
    (s.accActive = true → (∃ b ∈ s.text, ¬ IsDigitByte b) →
      exec .dnum s = .next (faulted s 6)) ∧
    (s.accActive = true → (∀ b ∈ s.text, IsDigitByte b) →
      ∃ t, exec .dnum s = .next t ∧ Appends s t (dataLength .numeric s.text.length) ∧
        (∀ k < s.text.length / 3,
          fieldAt t.accS (s.accS.length + 10 * k) 10 =
            digitAt s.text (3 * k) * 100 + digitAt s.text (3 * k + 1) * 10 +
              digitAt s.text (3 * k + 2)) ∧
        (s.text.length % 3 = 1 →
          fieldAt t.accS (s.accS.length + 10 * (s.text.length / 3)) 4 =
            digitAt s.text (s.text.length - 1)) ∧
        (s.text.length % 3 = 2 →
          fieldAt t.accS (s.accS.length + 10 * (s.text.length / 3)) 7 =
            digitAt s.text (s.text.length - 2) * 10 + digitAt s.text (s.text.length - 1)))

/-- 42_segment_encoders.md R137, with the fields of 30_encoding.md R66 and the table of R65, a byte
outside the alphabet having value 0. -/
def Obligations.DalnumAppendsSymbolPairsAndRemainder : Prop :=
  ∀ s : State,
    decode 0x80000000#32 = .command .dalnum ∧
    (s.accActive = false → exec .dalnum s = .next (faulted s 3)) ∧
    (s.accActive = true →
      ∃ t, exec .dalnum s = .next t ∧
        Appends s t (dataLength .alphanumeric s.text.length) ∧
        (∀ k < s.text.length / 2,
          fieldAt t.accS (s.accS.length + 11 * k) 11 =
            alnumAt s.text (2 * k) * 45 + alnumAt s.text (2 * k + 1)) ∧
        (s.text.length % 2 = 1 →
          fieldAt t.accS (s.accS.length + 11 * (s.text.length / 2)) 6 =
            alnumAt s.text (s.text.length - 1)))

/-- 42_segment_encoders.md R139, with the fields of 30_encoding.md R67. -/
def Obligations.DbyteAppendsEveryByteVerbatim : Prop :=
  ∀ s : State,
    decode 0x90000000#32 = .command .dbyte ∧
    (s.accActive = false → exec .dbyte s = .next (faulted s 3)) ∧
    (s.accActive = true →
      ∃ t, exec .dbyte s = .next t ∧ Appends s t (dataLength .byte s.text.length) ∧
        ∀ k < s.text.length,
          fieldAt t.accS (s.accS.length + 8 * k) 8 = (s.text.getD k 0).toNat)

/-- `validUtf8` accepts exactly the UTF-8 encodings of lists of Unicode scalar values, and SCALARS
counts them (42_segment_encoders.md R130, R131; the encoding of a scalar is RFC 3629's, log entry
12). -/
def Obligations.ValidTextIsTheEncodingOfItsScalars : Prop :=
  (∀ text : List Byte, validUtf8 text = true ↔
    ∃ cs : List Nat,
      (∀ c ∈ cs, c < 0xD800 ∨ (0xDFFF < c ∧ c ≤ 0x10FFFF)) ∧ text = cs.flatMap utf8Encode) ∧
  ∀ cs : List Nat, (∀ c ∈ cs, c < 0xD800 ∨ (0xDFFF < c ∧ c ≤ 0x10FFFF)) →
    scalars (cs.flatMap utf8Encode) = cs.length

/-- Under the default CAP a truncated count never reaches a finished output: a text whose count does
not fit its field needs more than 8·CAP(ver, L) bits (42_segment_encoders.md R134, which the spec
derives; the default is informative, log entry 7). -/
def Obligations.TruncatedCountNeverFitsTheDefaultCapacity : Prop :=
  ∀ (m : Mode) (ver : Nat) (text : List Byte), 1 ≤ ver → ver ≤ 40 → modeOf text = m →
    2 ^ countWidthOf ver m ≤ charCount m text →
    ∀ ec, 8 * Config.isoCap ver ec < segBits m ver text

/-- The pseudo-instruction SEG (30_encoding.md R81) as the host issues it: if its header faults the
data command is refused and the accumulator keeps its bits; if not, the two append SEGBITS bits
(42_segment_encoders.md R140, which the spec derives): the indicator, the truncated count and the
mode's data bits, and change nothing else. The words stand as pending host moves, the
model's choice (log entry 1). -/
def Obligations.SegAppendsTheSegmentOrIsRefusedWhole : Prop :=
  ∀ (s : State) (text : List Byte) (m : Mode) (ver : BitVec 6), s.fault = 0 →
    s.pending = assembleFrom text [.pseudo (.seg m ver)] →
    ∃ t u, step s = .next t ∧ step t = .next u ∧
      (t.fault ≠ 0 → u = { t with pending := [] } ∧ u.accS = s.accS) ∧
      (t.fault = 0 →
        u = { s with
              pending := [], text := text, accS := u.accS,
              response := some (bareResponse .ok 0 true) } ∧
        u.accS.length = s.accS.length + segBits m ver.toNat text ∧
        u.accS.take s.accS.length = s.accS ∧
        fieldAt u.accS s.accS.length 4 = (modeNumbers m).indicator.toNat ∧
        fieldAt u.accS (s.accS.length + 4) (countWidthOf ver.toNat m) =
          countOf m text % 2 ^ countWidthOf ver.toNat m ∧
        u.accS.drop (s.accS.length + 4 + countWidthOf ver.toNat m) = dataBits m text)

/-- The pseudo-instruction PUSHZ (30_encoding.md R81): `w` zero bits. The word stands as a pending host
move, the model's choice (log entry 1). -/
def Obligations.PushzAppendsZeroBits : Prop :=
  ∀ (s : State) (text : List Byte) (w : Nat), 1 ≤ w → w ≤ 16 → s.fault = 0 →
    s.accActive = true → s.pending = assembleFrom text [.pseudo (.pushz w)] →
    step s = .next
      { s with
        pending := [], text := text, accS := s.accS ++ List.replicate w false,
        response := some (bareResponse .ok 0 true) }

/-! ## The terminator and padding filler, and ENCODE -/

/-- 43_finish_and_encode.md R160 with the terminator byte of R162, the free bits of R163 and the pad
bytes of R164. -/
def Obligations.FinishTerminatesAndPadsOrOverflows : Prop :=
  ∀ (required : BitVec 16) (s : State),
    decode (0xA0000000#32 ||| required.setWidth 32) = .command (.finish required) ∧
    (s.accActive = false → exec (.finish required) s = .next (faulted s 3)) ∧
    (s.accActive = true → required.toNat < byteLen s.accS →
      exec (.finish required) s = .next
        { s with
          accActive := false,
          response := some (bareResponse .capacityExceeded s.fault false) }) ∧
    (s.accActive = true → byteLen s.accS ≤ required.toNat →
      ∃ b : List Byte,
        exec (.finish required) s = .next
          { s with
            accActive := false,
            response := some
              { status := .ok, fault := s.fault, active := false, mode := none, bytes := some b,
                shift := none } } ∧
        b.length = required.toNat ∧
        b.take (byteLen s.accS) = bytesOf s.accS ∧
        (terminatorBytes s.accS.length required.toNat = 1 → b[byteLen s.accS]? = some 0x00) ∧
        ∀ k, byteLen s.accS + terminatorBytes s.accS.length required.toNat + k < required.toNat →
          b[byteLen s.accS + terminatorBytes s.accS.length required.toNat + k]? =
            some (if k % 2 = 0 then 0xEC else 0x11))

/-- The terminator in a finished output (43_finish_and_encode.md R165, which the spec derives): four
zero bits follow the content when there is room for four, and only zero bits when there is not. -/
def Obligations.FinishedContentIsFollowedByTheTerminator : Prop :=
  ∀ (required : BitVec 16) (s t : State) (r : Response) (b : List Byte),
    s.accActive = true → exec (.finish required) s = .next t → t.response = some r →
    r.bytes = some b →
    ∀ k, s.accS.length ≤ k → k < s.accS.length + 4 → k < 8 * required.toNat →
      (b.getD (k / 8) 0).getLsbD (7 - k % 8) = false

/-- 43_finish_and_encode.md R166 and R167: the faults, the segment left in the accumulator, and the
answer of FINISH_RESULT on it for CAP(ver, ec). -/
def Obligations.EncodeLeavesTheSegmentAndAnswersItsCodewords : Prop :=
  ∀ (ver : BitVec 6) (ec : ECLevel) (s : State),
    decode (0xB0000000#32 ||| (ecCode ec).setWidth 32 <<< 8 ||| ver.setWidth 32) =
      .command (.encode ver ec) ∧
    (¬ LegalVersion ver → exec (.encode ver ec) s = .next (faulted s 2)) ∧
    (LegalVersion ver → validUtf8 s.text = false →
      exec (.encode ver ec) s = .next (faulted s 4)) ∧
    (LegalVersion ver → validUtf8 s.text = true →
      ∃ (bits : List Bool) (m : Mode) (cw : Nat), m = modeOf s.text ∧
        cw = countWidthOf ver.toNat m ∧ bits.length = segBits m ver.toNat s.text ∧
        fieldAt bits 0 4 = (modeNumbers m).indicator.toNat ∧
        fieldAt bits 4 cw = countOf m s.text % 2 ^ cw ∧
        bits.drop (4 + cw) = dataBits m s.text ∧
        (finishResult (bytesOf bits) (shiftOf bits) (capacity ver.toNat ec) = none →
          exec (.encode ver ec) s = .next
            { s with
              accS := bits, accActive := false,
              response := some (bareResponse .capacityExceeded s.fault false) }) ∧
        (∀ b, finishResult (bytesOf bits) (shiftOf bits) (capacity ver.toNat ec) = some b →
          b.length = capacity ver.toNat ec ∧
          exec (.encode ver ec) s = .next
            { s with
              accS := bits, accActive := false,
              response := some
                { status := .ok, fault := s.fault, active := false,
                  mode := some (modeNumbers m), bytes := some b, shift := none } }))

/-- ENCODE answers OK exactly when the segment fits (43_finish_and_encode.md R168, which the spec
derives from R161 and R140), with CAP at the two points 00_scope.md R7 pins. -/
def Obligations.EncodeSucceedsExactlyWhenTheSegmentFits : Prop :=
  (∀ (ver : BitVec 6) (ec : ECLevel) (s : State), LegalVersion ver → validUtf8 s.text = true →
    ∃ t r, exec (.encode ver ec) s = .next t ∧ t.response = some r ∧
      t.accS.length = segBits (modeOf s.text) ver.toNat s.text ∧
      (r.status = .ok ↔
        segBits (modeOf s.text) ver.toNat s.text ≤ 8 * capacity ver.toNat ec) ∧
      (r.status = .capacityExceeded ↔
        8 * capacity ver.toNat ec < segBits (modeOf s.text) ver.toNat s.text)) ∧
  capacity 1 .H = 9 ∧ capacity 4 .H = 36

/-- ENCODE does not read the accumulator it finds: a successful or overflowing ENCODE gives the same
next state whatever stood there (43_finish_and_encode.md R166; 92_eei_decisions.md D29). -/
def Obligations.EncodeIgnoresTheAccumulatorItFinds : Prop :=
  ∀ (ver : BitVec 6) (ec : ECLevel) (s : State) (bits : List Bool) (active : Bool),
    LegalVersion ver → validUtf8 s.text = true →
    ∃ t, exec (.encode ver ec) s = .next t ∧
      exec (.encode ver ec) { s with accS := bits, accActive := active } = .next t

/-- ENCODE is NEW, HDR, the data command of the selected mode and FINISH with CAP(ver, ec), each issued
as a word on the same text: the same status and bytes, and the same block state after
(70_reset_and_hazards.md R213, which the spec derives; 43_finish_and_encode.md R166). The words stand
as pending host moves, the model's choice (log entry 1). -/
def Obligations.EncodeEqualsNewHdrDataFinish : Prop :=
  ∀ (s : State) (text : List Byte) (ver : BitVec 6) (ec : ECLevel) (hint required : BitVec 16),
    s.fault = 0 → LegalVersion ver → validUtf8 text = true →
    required.toNat = capacity ver.toNat ec →
    ∃ (t u : State) (p q : Response),
      Host.Core.run Sys2Proof.core 4
        { s with
          pending :=
            [.command (encode (.new hint)) text,
             .command (encode (.hdr (modeOf text) ver)) text,
             .command (encode (dataCommand (modeOf text))) text,
             .command (encode (.finish required)) text] } = .next t ∧
      Host.Core.run Sys2Proof.core 1
        { s with pending := [.command (encode (.encode ver ec)) text] } = .next u ∧
      t.accS = u.accS ∧ t.accActive = u.accActive ∧ t.fault = u.fault ∧
      t.response = some p ∧ u.response = some q ∧ p.status = q.status ∧ p.bytes = q.bytes ∧
      q.status ≠ .fault

/-- FINISH and ENCODE need no more than the first `R + 1` bytes of the content, its count kept: the
verdict and the bytes of the filler are the same (00_scope.md R8; 92_eei_decisions.md D16). -/
def Obligations.FillerNeedsOneByteMoreThanTheCapacity : Prop :=
  ∀ (bits : List Bool) (required : Nat),
    finishResult ((bytesOf bits).take (required + 1)) (shiftOf bits) required =
      finishResult (bytesOf bits) (shiftOf bits) required

/-! ## The host's duties -/

/-- While the host keeps its duties 1 and 2, a live accumulator stays within MAX_BUF_BYTES over any
number of steps; ENCODE, which the bound does not cover, leaves a consumed one (00_scope.md R8;
70_reset_and_hazards.md R213). The host's moves stand in State by the model's choice (log entries 1
and 3), and how the duties read on a refused or faulting command is the model's (log entry 10). -/
def Obligations.DutifulHostKeepsTheLiveBufferBounded : Prop :=
  ∀ (n : Nat) (s t : State), HostDutiesMet n s → LiveBufferBounded s →
    Host.Core.run Sys2Proof.core n s = .next t → LiveBufferBounded t

/-! ## Frames of every command -/

/-- Every command keeps the earlier bits of the accumulator where they stood, but NEW and ENCODE, which
replace them; ANALYZE, PARTS and FINISH leave the bits as they are (20_memory.md R40, R48). -/
def Obligations.AccumulatorIsAppendOnly : Prop :=
  (∀ (i : Instr) (s t : State), exec i s = .next t → replacesBits i = false →
    s.accS <+: t.accS) ∧
  ∀ (i : Instr) (s t : State), exec i s = .next t →
    (i = .analyze ∨ i = .parts ∨ ∃ r, i = .finish r) → t.accS = s.accS

/-- No command writes the text or the moves to come, and only ANALYZE, HDR, DNUM, DALNUM, DBYTE and
ENCODE depend on the text (10_state.md R30). -/
def Obligations.TextIsReadOnlyAndReadBySixCommands : Prop :=
  (∀ (i : Instr) (s t : State), exec i s = .next t →
    t.text = s.text ∧ t.pending = s.pending) ∧
  ∀ (i : Instr) (s : State) (text : List Byte), readsText i = false →
    ∃ t, exec i s = .next t ∧ exec i { s with text := text } = .next { t with text := text }
end

