-- ==== Sys2Proof/Laws/Bits.lean ====
section
/-! SUPPORT. What the bit lists and their byte view do (00_scope.md R10; 10_state.md R23 to R25). -/

namespace Sys2Proof.Machine

@[simp] theorem length_bitsOf (w v : Nat) : (bitsOf w v).length = w := by
  induction w with
  | zero => rfl
  | succ w ih => simp [bitsOf, ih]

@[simp] theorem length_zeros (k : Nat) : (zeros k).length = k := by simp [zeros]

/-- Bit `k` of `bits_w(v)` is bit `w - 1 - k` of `v`. -/
theorem getElem?_bitsOf {w k : Nat} (v : Nat) (h : k < w) :
    (bitsOf w v)[k]? = some (v.testBit (w - 1 - k)) := by
  induction w generalizing k with
  | zero => omega
  | succ w ih =>
    cases k with
    | zero => simp [bitsOf]
    | succ k =>
      simp only [bitsOf, List.getElem?_cons_succ]
      rw [ih (by omega)]
      congr 2
      omega

theorem bitsOf_zero (w : Nat) : bitsOf w 0 = List.replicate w false := by
  induction w with
  | zero => rfl
  | succ w ih => simp [bitsOf, ih, List.replicate_succ]

theorem foldl_natOfBits (bits : List Bool) (n : Nat) :
    bits.foldl (fun n b => 2 * n + b.toNat) n = n * 2 ^ bits.length + natOfBits bits := by
  induction bits generalizing n with
  | nil => simp [natOfBits]
  | cons b rest ih =>
    simp only [natOfBits, List.foldl_cons, List.length_cons]
    rw [ih, ih (2 * 0 + b.toNat)]
    ring

@[simp] theorem natOfBits_nil : natOfBits [] = 0 := rfl

theorem natOfBits_cons (b : Bool) (rest : List Bool) :
    natOfBits (b :: rest) = b.toNat * 2 ^ rest.length + natOfBits rest := by
  have := foldl_natOfBits rest (2 * 0 + b.toNat)
  simpa [natOfBits] using this

theorem natOfBits_lt (bits : List Bool) : natOfBits bits < 2 ^ bits.length := by
  induction bits with
  | nil => simp
  | cons b rest ih =>
    rw [natOfBits_cons, List.length_cons, pow_succ]
    cases b <;> simp <;> omega

/-- Reading a field back gives the number that was written, modulo its width. -/
theorem natOfBits_bitsOf (w v : Nat) : natOfBits (bitsOf w v) = v % 2 ^ w := by
  induction w with
  | zero => simp [bitsOf, Nat.mod_one]
  | succ w ih =>
    rw [bitsOf, natOfBits_cons, length_bitsOf, ih, Nat.mod_pow_succ, Nat.testBit_eq_decide_div_mod_eq]
    rcases Nat.mod_two_eq_zero_or_one (v / 2 ^ w) with h | h <;> simp [h, Nat.add_comm]

theorem testBit_natOfBits {bits : List Bool} {k : Nat} (h : k < bits.length) :
    (natOfBits bits).testBit (bits.length - 1 - k) = bits[k] := by
  induction bits generalizing k with
  | nil => simp at h
  | cons b rest ih =>
    rw [natOfBits_cons, Nat.mul_comm]
    have hlt := natOfBits_lt rest
    cases k with
    | zero =>
      have : (b :: rest).length - 1 - 0 = rest.length := by simp
      rw [this, Nat.testBit_two_pow_mul_add _ hlt]
      cases b <;> simp
    | succ k =>
      simp only [List.length_cons, Nat.add_lt_add_iff_right] at h
      have : (b :: rest).length - 1 - (k + 1) = rest.length - 1 - k := by
        simp only [List.length_cons]; omega
      rw [this, Nat.testBit_two_pow_mul_add _ hlt, if_pos (by omega), ih h]
      rfl

/-- R25: bit `7 - j` of byte `i` is stream bit `8*i + j`, and 0 past the end. -/
theorem getLsbD_byteAt (bits : List Bool) (i : Nat) {j : Nat} (h : j < 8) :
    (byteAt bits i).getLsbD (7 - j) = bits.getD (8 * i + j) false := by
  have hlen : ((List.range 8).map fun j => bits.getD (8 * i + j) false).length = 8 := by simp
  have hk := testBit_natOfBits (k := j)
    (bits := (List.range 8).map fun j => bits.getD (8 * i + j) false) (by omega)
  simp only [hlen] at hk
  rw [byteAt, BitVec.getLsbD_ofNat, hk]
  simp only [List.getElem_map, List.getElem_range]
  have : 7 - j < 8 := by omega
  simp [this]

@[simp] theorem length_bytesOf (bits : List Bool) : (bytesOf bits).length = byteLen bits := by
  simp [bytesOf]

theorem getElem?_bytesOf {bits : List Bool} {i : Nat} (h : i < byteLen bits) :
    (bytesOf bits)[i]? = some (byteAt bits i) := by
  simp [bytesOf, h]

theorem getD_bytesOf {bits : List Bool} {i : Nat} (h : i < byteLen bits) (d : Byte) :
    (bytesOf bits).getD i d = byteAt bits i := by
  rw [List.getD_eq_getElem?_getD, getElem?_bytesOf h, Option.getD_some]

/-- Two bytes with the same eight bits are equal, read in stream order. -/
theorem byte_eq_of_bits {a b : Byte} (h : ∀ j < 8, a.getLsbD (7 - j) = b.getLsbD (7 - j)) :
    a = b := by
  apply BitVec.eq_of_getLsbD_eq
  intro k hk
  have := h (7 - k) (by omega)
  rwa [show 7 - (7 - k) = k by omega] at this

/-- A byte depends on its eight stream bits only. -/
theorem byteAt_congr {bits bits' : List Bool} {i i' : Nat}
    (h : ∀ j < 8, bits.getD (8 * i + j) false = bits'.getD (8 * i' + j) false) :
    byteAt bits i = byteAt bits' i' :=
  byte_eq_of_bits fun j hj => by rw [getLsbD_byteAt _ _ hj, getLsbD_byteAt _ _ hj, h j hj]

/-- The byte view of a stream that ends on a byte boundary, with more bits after it. -/
theorem bytesOf_append {bits : List Bool} (more : List Bool) (h : bits.length % 8 = 0) :
    bytesOf (bits ++ more) = bytesOf bits ++ bytesOf more := by
  have hlen : byteLen (bits ++ more) = byteLen bits + byteLen more := by
    simp only [byteLen, List.length_append]; omega
  have hb : byteLen bits * 8 = bits.length := by simp only [byteLen]; omega
  apply List.ext_getElem?
  intro i
  by_cases hi : i < byteLen bits
  · rw [getElem?_bytesOf (by omega), List.getElem?_append_left (by simpa using hi),
      getElem?_bytesOf hi]
    congr 1
    apply byteAt_congr
    intro j hj
    rw [List.getD_eq_getElem?_getD, List.getElem?_append_left (by omega),
      List.getD_eq_getElem?_getD]
  · by_cases hi' : i < byteLen bits + byteLen more
    · rw [getElem?_bytesOf (by omega), List.getElem?_append_right (by simpa using hi),
        length_bytesOf, getElem?_bytesOf (by omega)]
      congr 1
      apply byteAt_congr
      intro j hj
      rw [List.getD_eq_getElem?_getD, List.getElem?_append_right (by omega),
        List.getD_eq_getElem?_getD]
      congr 2
      omega
    · rw [List.getElem?_eq_none (by simp; omega), List.getElem?_eq_none (by simp; omega)]

/-- Zero bits that only fill the last byte leave the byte view as it is (20_memory.md R49). -/
theorem bytesOf_append_zeros {bits : List Bool} {k : Nat}
    (h : byteLen (bits ++ zeros k) = byteLen bits) :
    bytesOf (bits ++ zeros k) = bytesOf bits := by
  rw [bytesOf, bytesOf, h]
  apply List.map_congr_left
  intro i _
  apply byteAt_congr
  intro j _
  rw [List.getD_eq_getElem?_getD, List.getD_eq_getElem?_getD]
  by_cases hk : 8 * i + j < bits.length
  · rw [List.getElem?_append_left hk]
  · rw [List.getElem?_append_right (by omega), List.getElem?_eq_none (l := bits) (by omega)]
    simp only [zeros, List.getElem?_replicate]
    split <;> rfl

/-- The byte view of one 8-bit field is its byte. -/
theorem bytesOf_bitsOf_eight (b : Byte) : bytesOf (bitsOf 8 b.toNat) = [b] := by
  have hlen : byteLen (bitsOf 8 b.toNat) = 1 := by simp [byteLen]
  have : byteAt (bitsOf 8 b.toNat) 0 = b := by
    apply byte_eq_of_bits
    intro j hj
    rw [getLsbD_byteAt _ _ hj, List.getD_eq_getElem?_getD, Nat.mul_zero, Nat.zero_add,
      getElem?_bitsOf _ hj, Option.getD_some]
    rfl
  simp [bytesOf, hlen, this]

/-- The bits of the byte view in stream order: the stream, then zeros (R25). -/
theorem bit_bytesOf (bits : List Bool) (k : Nat) :
    ((bytesOf bits).getD (k / 8) 0).getLsbD (7 - k % 8) = bits.getD k false := by
  by_cases h : k / 8 < byteLen bits
  · rw [getD_bytesOf h, getLsbD_byteAt _ _ (Nat.mod_lt _ (by omega)), Nat.div_add_mod]
  · have hk : bits.length ≤ k := by simp only [byteLen] at h; omega
    rw [List.getD_eq_default _ _ (by simpa using h), List.getD_eq_default _ _ hk]
    simp

end Sys2Proof.Machine
end

