-- ==== Sys2Proof/Laws/Encoding.lean ====
section
/-! SUPPORT. The fields of a word built from an opcode and a low part, and a word written as the spec's
`|` of its parts (30_encoding.md R71, R80). -/

namespace Sys2Proof

theorem toNat_opWord {op low : Nat} (ho : op < 16) (hl : low < 2 ^ 28) :
    (opWord op low).toNat = op * 2 ^ 28 + low := by
  rw [opWord, BitVec.toNat_ofNat]
  exact Nat.mod_eq_of_lt (by omega)

/-- The opcode of a word built by `opWord`. -/
theorem field_opWord_op {op low : Nat} (ho : op < 16) (hl : low < 2 ^ 28) :
    field (opWord op low) 31 28 = op := by
  rw [field, toNat_opWord ho hl]; omega

/-- A field below the opcode is the field of the low part. -/
theorem field_opWord_low {op low : Nat} (ho : op < 16) (hl : low < 2 ^ 28) {hi lo : Nat}
    (h : lo ≤ hi) (hh : hi < 28) :
    field (opWord op low) hi lo = low / 2 ^ lo % 2 ^ (hi + 1 - lo) := by
  rw [field, toNat_opWord ho hl]
  have : op * 2 ^ 28 = 2 ^ lo * (op * 2 ^ (27 - hi) * 2 ^ (hi + 1 - lo)) := by
    rw [show 28 = lo + ((27 - hi) + (hi + 1 - lo)) by omega, pow_add, pow_add]
    ring_nf
  rw [this, Nat.mul_add_div (by positivity), Nat.mul_add_mod_self_right]

theorem whenZero_of_eq {w : Word} {hi lo : Nat} (d : Decoded) (h : field w hi lo = 0) :
    whenZero w hi lo d = d := if_pos h

theorem whenZero_eq_command_iff {w : Word} {hi lo : Nat} {d : Decoded} {i : Instr} :
    whenZero w hi lo d = .command i ↔ field w hi lo = 0 ∧ d = .command i := by
  unfold whenZero; split_ifs with h <;> simp [h]

theorem modeCode_of_modeOfCode {n : Nat} {m : Mode} (h : modeOfCode n = some m) :
    (modeCode m).toNat = n := by
  unfold modeOfCode at h
  split at h <;> simp at h <;> subst h <;> rfl

theorem ecCode_ecOfCode {n : Nat} (h : n < 4) : (ecCode (ecOfCode n)).toNat = n := by
  match n with
  | 0 => rfl
  | 1 => rfl
  | 2 => rfl
  | 3 => rfl

/-- The `|` of a part and a number below it is their sum. -/
theorem ofNat_or {a b n : Nat} (hb : b < 2 ^ n) (ha : a * 2 ^ n + b < 2 ^ 32) :
    BitVec.ofNat 32 (a * 2 ^ n) ||| BitVec.ofNat 32 b = BitVec.ofNat 32 (a * 2 ^ n + b) := by
  apply BitVec.eq_of_toNat_eq
  rw [BitVec.toNat_or, BitVec.toNat_ofNat, BitVec.toNat_ofNat, BitVec.toNat_ofNat,
    Nat.mod_eq_of_lt ha, Nat.mod_eq_of_lt (a := a * 2 ^ n) (by omega),
    Nat.mod_eq_of_lt (a := b) (by omega), Nat.mul_comm a, Nat.two_pow_add_eq_or_of_lt hb]

theorem setWidth_eq_ofNat {n : Nat} (v : BitVec n) : v.setWidth 32 = BitVec.ofNat 32 v.toNat := by
  apply BitVec.eq_of_toNat_eq; simp

/-- The word of R80 for a command with one field at bit 0. -/
theorem opWord_eq_or {n : Nat} (op : Nat) (v : BitVec n) (ho : op < 16) (hn : n ≤ 28) :
    BitVec.ofNat 32 (op * 2 ^ 28) ||| v.setWidth 32 = opWord op v.toNat := by
  have hv : v.toNat < 2 ^ 28 := lt_of_lt_of_le v.isLt (Nat.pow_le_pow_right (by omega) hn)
  rw [setWidth_eq_ofNat, ofNat_or hv (by omega), opWord]

/-- The word of R80 for a command with a field at bit `k` and one below it at bit 0. -/
theorem opWord_eq_or_or {n k : Nat} (op a : Nat) (v : BitVec n) (ho : op < 16) (hn : n ≤ k)
    (ha : a * 2 ^ k + 2 ^ k ≤ 2 ^ 28) :
    BitVec.ofNat 32 (op * 2 ^ 28) ||| BitVec.ofNat 32 a <<< k ||| v.setWidth 32 =
      opWord op (a * 2 ^ k + v.toNat) := by
  have hv : v.toNat < 2 ^ k := lt_of_lt_of_le v.isLt (Nat.pow_le_pow_right (by omega) hn)
  have hshift : BitVec.ofNat 32 a <<< k = BitVec.ofNat 32 (a * 2 ^ k) := by
    apply BitVec.eq_of_toNat_eq
    simp [Nat.shiftLeft_eq]
  have hk : k ≤ 28 := by
    by_contra hk
    have := Nat.pow_le_pow_right (n := 2) (by omega) (show 29 ≤ k by omega)
    omega
  have h28 : op * 2 ^ 28 = op * 2 ^ (28 - k) * 2 ^ k := by
    rw [mul_assoc, ← pow_add, Nat.sub_add_cancel hk]
  rw [hshift, setWidth_eq_ofNat, ofNat_or (by omega) (by omega), opWord]
  rw [show op * 2 ^ 28 + a * 2 ^ k = (op * 2 ^ (28 - k) + a) * 2 ^ k by rw [h28]; ring]
  rw [ofNat_or hv (by rw [add_mul, ← h28]; omega)]
  rw [add_mul, ← h28, Nat.add_assoc]

end Sys2Proof
end

