-- ==== Sys2Proof/Laws/Operands.lean ====
section
/-! SUPPORT. What the operand functions do: the bands and widths, the character classes, the selected
mode, the text checks, and the lengths of the header and the data. -/

namespace Sys2Proof.Machine

/-- The versions without a band are those outside 1..40 (30_encoding.md R63). -/
theorem bandOf_eq_none_iff (ver : BitVec 6) : bandOf ver.toNat = none ↔ ¬ LegalVersion ver := by
  unfold bandOf LegalVersion
  split_ifs <;> simp <;> omega

theorem bandOf_of_legal {ver : BitVec 6} (h : LegalVersion ver) :
    ∃ band, bandOf ver.toNat = some band ∧ ∀ m, countWidth band m = countWidthOf ver.toNat m := by
  unfold LegalVersion at h
  by_cases h1 : ver.toNat ≤ 9
  · exact ⟨.one, by simp [bandOf, h, h1], fun m => by cases m <;> simp [countWidth, countWidthOf, h1]⟩
  · by_cases h2 : ver.toNat ≤ 26
    · exact ⟨.two, by simp [bandOf, h1, h2]; omega,
        fun m => by cases m <;> simp [countWidth, countWidthOf, h1, h2]⟩
    · exact ⟨.three, by simp [bandOf, h1, h2]; omega,
        fun m => by cases m <;> simp [countWidth, countWidthOf, h1, h2]⟩

theorem modeField_eq (m : Mode) : modeField m = modeNumbers m := by cases m <;> rfl

theorem isDigit_iff (b : Byte) : isDigit b = true ↔ IsDigitByte b := by
  simp [isDigit, IsDigitByte]

/-- The alphabet in table order is the table by byte (30_encoding.md R65). -/
theorem alphabet_table :
    ∀ b : Byte, isAlnumSym b = (alnumOf b).isSome ∧ alnumValue b = (alnumOf b).getD 0 := by
  decide +kernel

theorem isAlnumSym_of_digit : ∀ b : Byte, isDigit b = true → isAlnumSym b = true := by
  decide +kernel

theorem isAlnumSym_ascii : ∀ b : Byte, isAlnumSym b = true → b.toNat < 0x80 := by
  decide +kernel

theorem isAlnumSym_eq_false_iff (b : Byte) : isAlnumSym b = false ↔ alnumOf b = none := by
  rw [(alphabet_table b).1, Option.isSome_eq_false_iff, Option.isNone_iff_eq_none]

/-- The loop of R90 answers Byte exactly when some byte is outside the alphabet (R91). -/
theorem modeFrom_eq_byte_iff {m : Mode} (hm : m ≠ .byte) (text : List Byte) :
    modeFrom m text = .byte ↔ ∃ b ∈ text, isAlnumSym b = false := by
  induction text generalizing m with
  | nil => simpa [modeFrom] using hm
  | cons b rest ih =>
    simp only [modeFrom]
    split_ifs with hd ha
    · rw [ih hm]
      simp [isAlnumSym_of_digit b hd]
    · rw [ih (by simp)]
      simp [ha]
    · simpa using Or.inl ha

theorem modeFrom_alphanumeric {text : List Byte} (h : ∀ b ∈ text, isAlnumSym b = true) :
    modeFrom .alphanumeric text = .alphanumeric := by
  induction text with
  | nil => rfl
  | cons b rest ih =>
    have ih := ih fun c hc => h c (by simp [hc])
    have hb := h b (by simp)
    simp only [modeFrom, hb, if_true, ih, ite_self]

/-- Without a byte outside the alphabet the loop stays Numeric exactly on digits (R91). -/
theorem modeOf_of_symbols {text : List Byte} (h : ∀ b ∈ text, isAlnumSym b = true) :
    modeOf text = if ∀ b ∈ text, isDigit b = true then .numeric else .alphanumeric := by
  unfold modeOf
  induction text with
  | nil => rfl
  | cons b rest ih =>
    have hr : ∀ c ∈ rest, isAlnumSym c = true := fun c hc => h c (by simp [hc])
    have hb := h b (by simp)
    by_cases hd : isDigit b = true
    · simp only [modeFrom, hd, if_true, ih hr, List.mem_cons, forall_eq_or_imp, true_and]
    · simp only [modeFrom, hd, if_false, hb, if_true, modeFrom_alphanumeric hr, List.mem_cons,
        forall_eq_or_imp, false_and, Bool.false_eq_true]

theorem modeOf_eq_numeric_iff (text : List Byte) :
    modeOf text = .numeric ↔ ∀ b ∈ text, isDigit b = true := by
  by_cases h : ∀ b ∈ text, isAlnumSym b = true
  · rw [modeOf_of_symbols h]
    split_ifs with hd
    · exact ⟨fun _ => hd, fun _ => rfl⟩
    · exact ⟨fun hc => by simp at hc, fun hc => absurd hc hd⟩
  · have hb : modeOf text = .byte :=
      (modeFrom_eq_byte_iff (by simp) text).2 (by simpa using h)
    rw [hb]
    refine ⟨by simp, fun hd => absurd (fun b hb => isAlnumSym_of_digit b (hd b hb)) h⟩

theorem isAlnumSym_of_modeOf_ne_byte {text : List Byte} (h : modeOf text ≠ .byte) :
    ∀ b ∈ text, isAlnumSym b = true := by
  by_contra hc
  exact h ((modeFrom_eq_byte_iff (by simp) text).2 (by simpa using hc))

/-- HDR's text check finds no fault exactly on the texts its mode can count (R132). -/
theorem textFault_eq_none_iff (m : Mode) (text : List Byte) :
    textFault m text = none ↔
      (m = .numeric → ∀ b ∈ text, IsDigitByte b) ∧ (m ≠ .numeric → validUtf8 text = true) := by
  cases m <;> simp [textFault, isDigit_iff]

theorem textFault_numeric_eq {text : List Byte} (h : ∃ b ∈ text, ¬ IsDigitByte b) :
    textFault .numeric text = some .nonDigit := by
  simpa [textFault, isDigit_iff] using h

theorem textFault_eq_notUtf8 {m : Mode} {text : List Byte} (hm : m ≠ .numeric)
    (h : validUtf8 text = false) : textFault m text = some .textNotUtf8 := by
  cases m <;> simp_all [textFault]

/-- The bits DNUM appends (R135). -/
theorem length_numericBits (text : List Byte) :
    (numericBits text).length = dataLength .numeric text.length := by
  induction text using numericBits.induct with
  | case1 => rfl
  | case2 d0 => simp [numericBits, dataLength]
  | case3 d0 d1 => simp [numericBits, dataLength]
  | case4 d0 d1 d2 rest ih =>
    simp only [numericBits, List.length_append, length_bitsOf, ih, dataLength, List.length_cons]
    split_ifs <;> omega

/-- The bits DALNUM appends (R137). -/
theorem length_alnumBits (text : List Byte) :
    (alnumBits text).length = dataLength .alphanumeric text.length := by
  induction text using alnumBits.induct with
  | case1 => rfl
  | case2 b0 => simp [alnumBits, dataLength]
  | case3 b0 b1 rest ih =>
    simp only [alnumBits, List.length_append, length_bitsOf, ih, dataLength, List.length_cons]
    omega

/-- The bits DBYTE appends (R139). -/
theorem length_byteBits (text : List Byte) :
    (byteBits text).length = dataLength .byte text.length := by
  induction text with
  | nil => rfl
  | cons b rest ih =>
    simp only [byteBits, dataLength, List.flatMap_cons, List.length_append, length_bitsOf,
      List.length_cons] at ih ⊢
    omega

theorem length_dataBits (m : Mode) (text : List Byte) :
    (dataBits m text).length = dataLength m text.length := by
  cases m
  · exact length_numericBits text
  · exact length_alnumBits text
  · exact length_byteBits text

theorem length_headerBits (band : Band) (m : Mode) (text : List Byte) :
    (headerBits band m text).length = 4 + countWidth band m := by
  simp [headerBits]

theorem charCount_eq (m : Mode) (text : List Byte) : charCount m text = countOf m text := by
  have h : ∀ b : Byte, (!isContinuation b) = decide (b.toNat / 64 ≠ 0b10) := fun b => by
    by_cases hb : b.toNat / 64 = 0b10 <;> simp [isContinuation, hb]
  cases m <;> simp only [charCount, countOf, scalars, List.countP_eq_length_filter, h]

end Sys2Proof.Machine
end

