-- ==== Sys2Proof/Laws/State.lean ====
section
/-! SUPPORT. What each named operation does to each field of the state: one lemma a field, all by rfl. -/

namespace Sys2Proof.Machine.State

variable (s : State)

@[simp] theorem respond_accS (st : Status) (m : Option ModeField) (b : Option (List Byte)) (n : Option (BitVec 3)) :
    (s.respond st m b n).accS =
      s.accS := rfl
@[simp] theorem respond_accActive (st : Status) (m : Option ModeField) (b : Option (List Byte)) (n : Option (BitVec 3)) :
    (s.respond st m b n).accActive =
      s.accActive := rfl
@[simp] theorem respond_fault (st : Status) (m : Option ModeField) (b : Option (List Byte)) (n : Option (BitVec 3)) :
    (s.respond st m b n).fault =
      s.fault := rfl
@[simp] theorem respond_text (st : Status) (m : Option ModeField) (b : Option (List Byte)) (n : Option (BitVec 3)) :
    (s.respond st m b n).text =
      s.text := rfl
@[simp] theorem respond_pending (st : Status) (m : Option ModeField) (b : Option (List Byte)) (n : Option (BitVec 3)) :
    (s.respond st m b n).pending =
      s.pending := rfl
@[simp] theorem respond_response (st : Status) (m : Option ModeField) (b : Option (List Byte)) (n : Option (BitVec 3)) :
    (s.respond st m b n).response =
      some { status := st, fault := s.fault, active := s.accActive, mode := m, bytes := b, shift := n } := rfl

@[simp] theorem respondOk_accS : s.respondOk.accS = s.accS := rfl
@[simp] theorem respondOk_accActive : s.respondOk.accActive = s.accActive := rfl
@[simp] theorem respondOk_fault : s.respondOk.fault = s.fault := rfl
@[simp] theorem respondOk_text : s.respondOk.text = s.text := rfl
@[simp] theorem respondOk_pending : s.respondOk.pending = s.pending := rfl
@[simp] theorem respondOk_response :
    s.respondOk.response =
      some { status := .ok, fault := s.fault, active := s.accActive, mode := none, bytes := none, shift := none } := rfl

@[simp] theorem raiseFault_accS (c : FaultCode) : (s.raiseFault c).accS = s.accS := rfl
@[simp] theorem raiseFault_accActive (c : FaultCode) :
    (s.raiseFault c).accActive =
      s.accActive := rfl
@[simp] theorem raiseFault_fault (c : FaultCode) : (s.raiseFault c).fault = c.code := rfl
@[simp] theorem raiseFault_text (c : FaultCode) : (s.raiseFault c).text = s.text := rfl
@[simp] theorem raiseFault_pending (c : FaultCode) : (s.raiseFault c).pending = s.pending := rfl
@[simp] theorem raiseFault_response (c : FaultCode) :
    (s.raiseFault c).response =
      some { status := .fault, fault := c.code, active := s.accActive, mode := none, bytes := none, shift := none } := rfl

@[simp] theorem assertReset_accS : s.assertReset.accS = [] := rfl
@[simp] theorem assertReset_accActive : s.assertReset.accActive = true := rfl
@[simp] theorem assertReset_fault : s.assertReset.fault = 0 := rfl
@[simp] theorem assertReset_text : s.assertReset.text = s.text := rfl
@[simp] theorem assertReset_pending : s.assertReset.pending = s.pending := rfl
@[simp] theorem assertReset_response : s.assertReset.response = none := rfl

@[simp] theorem refuse_accS : s.refuse.accS = s.accS := rfl
@[simp] theorem refuse_accActive : s.refuse.accActive = s.accActive := rfl
@[simp] theorem refuse_fault : s.refuse.fault = s.fault := rfl
@[simp] theorem refuse_text : s.refuse.text = s.text := rfl
@[simp] theorem refuse_pending : s.refuse.pending = s.pending := rfl
@[simp] theorem refuse_response :
    s.refuse.response =
      some { status := .fault, fault := s.fault, active := s.accActive, mode := none, bytes := none, shift := none } := rfl

@[simp] theorem append_accS (bits : List Bool) : (s.append bits).accS = s.accS ++ bits := rfl
@[simp] theorem append_accActive (bits : List Bool) : (s.append bits).accActive = s.accActive := rfl
@[simp] theorem append_fault (bits : List Bool) : (s.append bits).fault = s.fault := rfl
@[simp] theorem append_text (bits : List Bool) : (s.append bits).text = s.text := rfl
@[simp] theorem append_pending (bits : List Bool) : (s.append bits).pending = s.pending := rfl
@[simp] theorem append_response (bits : List Bool) : (s.append bits).response = s.response := rfl

@[simp] theorem fresh_accS : s.fresh.accS = [] := rfl
@[simp] theorem fresh_accActive : s.fresh.accActive = true := rfl
@[simp] theorem fresh_fault : s.fresh.fault = s.fault := rfl
@[simp] theorem fresh_text : s.fresh.text = s.text := rfl
@[simp] theorem fresh_pending : s.fresh.pending = s.pending := rfl
@[simp] theorem fresh_response : s.fresh.response = s.response := rfl

@[simp] theorem consume_accS : s.consume.accS = s.accS := rfl
@[simp] theorem consume_accActive : s.consume.accActive = false := rfl
@[simp] theorem consume_fault : s.consume.fault = s.fault := rfl
@[simp] theorem consume_text : s.consume.text = s.text := rfl
@[simp] theorem consume_pending : s.consume.pending = s.pending := rfl
@[simp] theorem consume_response : s.consume.response = s.response := rfl

@[simp] theorem present_accS (t : List Byte) : (s.present t).accS = s.accS := rfl
@[simp] theorem present_accActive (t : List Byte) : (s.present t).accActive = s.accActive := rfl
@[simp] theorem present_fault (t : List Byte) : (s.present t).fault = s.fault := rfl
@[simp] theorem present_text (t : List Byte) : (s.present t).text = t := rfl
@[simp] theorem present_pending (t : List Byte) : (s.present t).pending = s.pending := rfl
@[simp] theorem present_response (t : List Byte) : (s.present t).response = s.response := rfl

@[simp] theorem issue_accS (w : Word) : (s.issue w).accS = s.accS := rfl
@[simp] theorem issue_accActive (w : Word) : (s.issue w).accActive = s.accActive := rfl
@[simp] theorem issue_fault (w : Word) : (s.issue w).fault = s.fault := rfl
@[simp] theorem issue_text (w : Word) : (s.issue w).text = s.text := rfl
@[simp] theorem issue_pending (w : Word) :
    (s.issue w).pending =
      .command w s.text :: s.pending := rfl
@[simp] theorem issue_response (w : Word) : (s.issue w).response = s.response := rfl

/-! The answer of the filler changes the response only. -/
@[simp] theorem answerFinish_accS (r : Nat) (m : Option ModeField) :
    (s.answerFinish r m).accS = s.accS := by
  unfold answerFinish; split <;> rfl
@[simp] theorem answerFinish_accActive (r : Nat) (m : Option ModeField) :
    (s.answerFinish r m).accActive = s.accActive := by
  unfold answerFinish; split <;> rfl
@[simp] theorem answerFinish_fault (r : Nat) (m : Option ModeField) :
    (s.answerFinish r m).fault = s.fault := by
  unfold answerFinish; split <;> rfl
@[simp] theorem answerFinish_text (r : Nat) (m : Option ModeField) :
    (s.answerFinish r m).text = s.text := by
  unfold answerFinish; split <;> rfl
@[simp] theorem answerFinish_pending (r : Nat) (m : Option ModeField) :
    (s.answerFinish r m).pending = s.pending := by
  unfold answerFinish; split <;> rfl

end Sys2Proof.Machine.State
end

