-- ==== Sys2Proof/Laws/Ops.lean ====
section
/-! SUPPORT. What the shared operations do: the fault entry, the append, the filler. -/

namespace Sys2Proof.Machine

theorem code_ne_zero (c : FaultCode) : c.code ≠ 0 := by cases c <;> decide

theorem code_le_six (c : FaultCode) : c.code.toNat ≤ 6 := by cases c <;> decide

/-- The fault entry in the terms of the statements (60_exceptions.md R189). -/
theorem raiseFault_eq (s : State) (c : FaultCode) : s.raiseFault c = faulted s c.code := rfl

/-- Appending and answering OK, on a live accumulator. -/
theorem appends_respondOk {s : State} (bits : List Bool) (h : s.accActive = true) :
    Appends s (s.append bits).respondOk bits.length :=
  ⟨by simp [State.append, State.respondOk, State.respond, bareResponse, h], by simp, by simp⟩

/-- FINISH reports overflow exactly when the content has more bytes than required (R161). -/
theorem finishResult_eq_none_iff (bytes : List Byte) (shift required : Nat) :
    finishResult bytes shift required = none ↔ required < bytes.length := by
  unfold finishResult
  split <;> simp_all

theorem byteLen_le_iff (bits : List Bool) (r : Nat) :
    byteLen bits ≤ r ↔ bits.length ≤ 8 * r := by
  unfold byteLen; omega

theorem length_padBytes (n : Nat) : (padBytes n).length = n := by simp [padBytes]

theorem length_withTerminator (bytes : List Byte) (shift required : Nat) :
    (withTerminator bytes shift required).length =
      bytes.length + (if freeBits shift < 4 ∧ bytes.length < required then 1 else 0) := by
  unfold withTerminator
  split_ifs <;> simp

/-- Finished bytes have the required length and begin with the content (R165). -/
theorem finishResult_some {bytes b : List Byte} {shift required : Nat}
    (h : finishResult bytes shift required = some b) :
    b.length = required ∧ bytes <+: b ∧ bytes.length ≤ required ∧
      b = withTerminator bytes shift required ++
        padBytes (required - (withTerminator bytes shift required).length) := by
  unfold finishResult at h
  split at h
  · simp at h
  · rename_i hle
    simp only [Option.some.injEq] at h
    subst h
    have hw := length_withTerminator bytes shift required
    refine ⟨?_, ?_, by omega, rfl⟩
    · rw [List.length_append, length_padBytes]
      split_ifs at hw <;> omega
    · refine List.IsPrefix.trans ?_ (List.prefix_append _ _)
      unfold withTerminator
      split_ifs
      · exact List.prefix_append _ _
      · exact List.prefix_refl _

/-- The two answers of the filler. -/
theorem answerFinish_cases (s : State) (required : Nat) (mode : Option ModeField) :
    (required < byteLen s.accS ∧
      s.answerFinish required mode = s.respond .capacityExceeded none none none) ∨
    ∃ b, finishResult (bytesOf s.accS) (shiftOf s.accS) required = some b ∧
      byteLen s.accS ≤ required ∧
      s.answerFinish required mode = s.respond .ok mode (some b) none := by
  cases h : finishResult (bytesOf s.accS) (shiftOf s.accS) required with
  | none =>
    refine .inl ⟨?_, by simp [State.answerFinish, h]⟩
    simpa using (finishResult_eq_none_iff _ _ _).1 h
  | some b =>
    refine .inr ⟨b, rfl, ?_, by simp [State.answerFinish, h]⟩
    simpa using (finishResult_some h).2.2.1

end Sys2Proof.Machine
end

