-- ==== Sys2Proof/Laws/Exec.lean ====
section
/-! SUPPORT. Everything each meaning can answer, said once: the cases of its checks, in the order of
60_exceptions.md R188. -/

namespace Sys2Proof.Machine

/-- Whether the accumulator is live, as the meanings ask it. -/
theorem active_or (s : State) : s.accActive = false ∨ s.accActive = true := by
  cases s.accActive <;> simp

theorem execPush_cases (value : BitVec 16) (width : Nat) (s : State) :
    (s.accActive = false ∧ execPush value width s = .next (faulted s 3)) ∨
    (s.accActive = true ∧ 2 ^ width ≤ value.toNat ∧
      execPush value width s = .next (faulted s 5)) ∨
    (s.accActive = true ∧ value.toNat < 2 ^ width ∧
      execPush value width s = .next (s.append (bitsOf width value.toNat)).respondOk) := by
  rcases active_or s with h | h
  · exact .inl ⟨h, by simp [execPush, h, raiseFault_eq, FaultCode.code]⟩
  · by_cases hv : 2 ^ width ≤ value.toNat
    · exact .inr (.inl ⟨h, hv, by simp [execPush, h, hv, raiseFault_eq, FaultCode.code]⟩)
    · exact .inr (.inr ⟨h, by omega, by simp [execPush, h, hv]⟩)

theorem execPushb_cases (value : BitVec 8) (s : State) :
    (s.accActive = false ∧ execPushb value s = .next (faulted s 3)) ∨
    (s.accActive = true ∧
      execPushb value s = .next
        (s.append (zeros ((8 - shiftOf s.accS) % 8) ++ bitsOf 8 value.toNat)).respondOk) := by
  rcases active_or s with h | h
  · exact .inl ⟨h, by simp [execPushb, h, raiseFault_eq, FaultCode.code]⟩
  · exact .inr ⟨h, by simp [execPushb, h]⟩

theorem execParts_cases (s : State) :
    (s.accActive = false ∧ execParts s = .next (faulted s 3)) ∨
    (s.accActive = true ∧
      execParts s = .next
        (s.consume.respond .ok none (some (bytesOf s.accS))
          (some (BitVec.ofNat 3 (shiftOf s.accS))))) := by
  rcases active_or s with h | h
  · exact .inl ⟨h, by simp [execParts, h, raiseFault_eq, FaultCode.code]⟩
  · exact .inr ⟨h, by simp [execParts, h]⟩

theorem execHdr_cases (mode : Mode) (ver : BitVec 6) (s : State) :
    (¬ LegalVersion ver ∧ execHdr mode ver s = .next (faulted s 2)) ∨
    (LegalVersion ver ∧ s.accActive = false ∧ execHdr mode ver s = .next (faulted s 3)) ∨
    (LegalVersion ver ∧ s.accActive = true ∧ ∃ c, textFault mode s.text = some c ∧
      execHdr mode ver s = .next (faulted s c.code)) ∨
    (LegalVersion ver ∧ s.accActive = true ∧ textFault mode s.text = none ∧
      ∃ band, bandOf ver.toNat = some band ∧
        (∀ m, countWidth band m = countWidthOf ver.toNat m) ∧
        execHdr mode ver s = .next (s.append (headerBits band mode s.text)).respondOk) := by
  by_cases hv : LegalVersion ver
  · obtain ⟨band, hb, hw⟩ := bandOf_of_legal hv
    rcases active_or s with h | h
    · exact .inr (.inl ⟨hv, h, by simp [execHdr, hb, h, raiseFault_eq, FaultCode.code]⟩)
    · cases ht : textFault mode s.text with
      | some c =>
        exact .inr (.inr (.inl ⟨hv, h, c, rfl, by simp [execHdr, hb, h, ht, raiseFault_eq]⟩))
      | none =>
        exact .inr (.inr (.inr ⟨hv, h, rfl, band, hb, hw, by simp [execHdr, hb, h, ht]⟩))
  · have hb := (bandOf_eq_none_iff ver).2 hv
    exact .inl ⟨hv, by simp [execHdr, hb, raiseFault_eq, FaultCode.code]⟩

theorem execDnum_cases (s : State) :
    (s.accActive = false ∧ execDnum s = .next (faulted s 3)) ∨
    (s.accActive = true ∧ (∃ b ∈ s.text, ¬ IsDigitByte b) ∧
      execDnum s = .next (faulted s 6)) ∨
    (s.accActive = true ∧ (∀ b ∈ s.text, IsDigitByte b) ∧
      execDnum s = .next (s.append (numericBits s.text)).respondOk) := by
  rcases active_or s with h | h
  · exact .inl ⟨h, by simp [execDnum, h, raiseFault_eq, FaultCode.code]⟩
  · by_cases hd : ∀ b ∈ s.text, IsDigitByte b
    · have ht : textFault .numeric s.text = none := by
        rw [textFault_eq_none_iff]
        exact ⟨fun _ => hd, by simp⟩
      exact .inr (.inr ⟨h, hd, by simp [execDnum, h, ht]⟩)
    · have hd : ∃ b ∈ s.text, ¬ IsDigitByte b := by simpa using hd
      exact .inr (.inl ⟨h, hd, by
        simp [execDnum, h, textFault_numeric_eq hd, raiseFault_eq, FaultCode.code]⟩)

theorem execDalnum_cases (s : State) :
    (s.accActive = false ∧ execDalnum s = .next (faulted s 3)) ∨
    (s.accActive = true ∧ execDalnum s = .next (s.append (alnumBits s.text)).respondOk) := by
  rcases active_or s with h | h
  · exact .inl ⟨h, by simp [execDalnum, h, raiseFault_eq, FaultCode.code]⟩
  · exact .inr ⟨h, by simp [execDalnum, h]⟩

theorem execDbyte_cases (s : State) :
    (s.accActive = false ∧ execDbyte s = .next (faulted s 3)) ∨
    (s.accActive = true ∧ execDbyte s = .next (s.append (byteBits s.text)).respondOk) := by
  rcases active_or s with h | h
  · exact .inl ⟨h, by simp [execDbyte, h, raiseFault_eq, FaultCode.code]⟩
  · exact .inr ⟨h, by simp [execDbyte, h]⟩

theorem execFinish_cases (required : BitVec 16) (s : State) :
    (s.accActive = false ∧ execFinish required s = .next (faulted s 3)) ∨
    (s.accActive = true ∧
      execFinish required s = .next (s.consume.answerFinish required.toNat none)) := by
  rcases active_or s with h | h
  · exact .inl ⟨h, by simp [execFinish, h, raiseFault_eq, FaultCode.code]⟩
  · exact .inr ⟨h, by simp [execFinish, h]⟩

theorem execEncode_cases (ver : BitVec 6) (ec : ECLevel) (s : State) :
    (¬ LegalVersion ver ∧ execEncode ver ec s = .next (faulted s 2)) ∨
    (LegalVersion ver ∧ validUtf8 s.text = false ∧
      execEncode ver ec s = .next (faulted s 4)) ∨
    (LegalVersion ver ∧ validUtf8 s.text = true ∧
      ∃ band, bandOf ver.toNat = some band ∧
        (∀ m, countWidth band m = countWidthOf ver.toNat m) ∧
        execEncode ver ec s = .next
          (((s.fresh.append (headerBits band (modeOf s.text) s.text ++
              dataBits (modeOf s.text) s.text)).consume).answerFinish
            (capacity ver.toNat ec) (some (modeField (modeOf s.text))))) := by
  by_cases hv : LegalVersion ver
  · obtain ⟨band, hb, hw⟩ := bandOf_of_legal hv
    cases hu : validUtf8 s.text with
    | false =>
      exact .inr (.inl ⟨hv, rfl, by simp [execEncode, hb, hu, raiseFault_eq, FaultCode.code]⟩)
    | true => exact .inr (.inr ⟨hv, rfl, band, hb, hw, by simp [execEncode, hb, hu]⟩)
  · have hb := (bandOf_eq_none_iff ver).2 hv
    exact .inl ⟨hv, by simp [execEncode, hb, raiseFault_eq, FaultCode.code]⟩

end Sys2Proof.Machine
end

