-- ==== Sys2Proof/Laws/Fields.lean ====
section
/-! SUPPORT. Reading a field back from a bit list (00_scope.md R10). -/

namespace Sys2Proof.Machine

/-- A field that lies past the first list lies in the second. -/
theorem fieldAt_append_right (a b : List Bool) (off w : Nat) :
    fieldAt (a ++ b) (a.length + off) w = fieldAt b off w := by
  unfold fieldAt
  rw [List.drop_append, List.drop_eq_nil_of_le (by omega), List.nil_append,
    Nat.add_sub_cancel_left]

/-- A field that lies in the first list is read from it alone. -/
theorem fieldAt_append_left {a b : List Bool} {off w : Nat} (h : off + w ≤ a.length) :
    fieldAt (a ++ b) off w = fieldAt a off w := by
  unfold fieldAt
  rw [List.drop_append_of_le_length (by omega), List.take_append_of_le_length (by simp; omega)]

/-- The field `bits_w(v)` at the front reads back as `v mod 2^w`. -/
theorem fieldAt_bitsOf (w v : Nat) (rest : List Bool) :
    fieldAt (bitsOf w v ++ rest) 0 w = v % 2 ^ w := by
  rw [fieldAt, List.drop_zero, List.take_append_of_le_length (by simp),
    List.take_of_length_le (by simp), natOfBits_bitsOf]

theorem fieldAt_bitsOf_end (w v : Nat) : fieldAt (bitsOf w v) 0 w = v % 2 ^ w := by
  simpa using fieldAt_bitsOf w v []

end Sys2Proof.Machine
end

