-- ==== Sys2Proof/Laws/Perform.lean ====
section
/-! SUPPORT. The cases of performing a word and of one step (60_exceptions.md R188). -/

namespace Sys2Proof.Machine

theorem perform_of_fault {w : Word} {s : State} (h : s.fault ≠ 0) :
    perform w s = .next s.refuse := if_pos h

theorem perform_of_illegal {w : Word} {s : State} {why : Illegal} (h : s.fault = 0)
    (hd : decode w = .illegal why) : perform w s = .next (faulted s 1) := by
  unfold perform
  rw [if_neg (by simpa using h), hd]
  rfl

theorem perform_of_command {w : Word} {s : State} {i : Instr} (h : s.fault = 0)
    (hd : decode w = .command i) : perform w s = exec i s := by
  unfold perform
  rw [if_neg (by simpa using h), hd]

theorem step_of_idle {s : State} (h : s.pending = []) : step s = .next s := by
  simp [step, advance, h]

theorem step_of_reset {s : State} {rest : List HostMove} (h : s.pending = .reset :: rest) :
    step s = .next (State.assertReset { s with pending := rest }) := by
  simp [step, advance, h]

theorem step_of_command {s : State} {w : Word} {text : List Byte} {rest : List HostMove}
    (h : s.pending = .command w text :: rest) :
    step s = perform w { s with pending := rest, text := text } := by
  simp [step, advance, h, State.present]

/-- A run of any core whose first step goes on is the run of the rest. -/
theorem core_run_of_next (M : Host.Core) (n : Nat) (s t : M.State) (h : M.step s = .next t) :
    M.run (n + 1) s = M.run n t := by
  simp only [Host.Core.run, h]

/-- The same of this machine. -/
theorem run_of_next {s t : State} (n : Nat) (h : step s = .next t) :
    Host.Core.run Sys2Proof.core (n + 1) s = Host.Core.run Sys2Proof.core n t :=
  core_run_of_next Sys2Proof.core n s t h

theorem run_zero (s : State) : Host.Core.run Sys2Proof.core 0 s = .next s := rfl

end Sys2Proof.Machine
end

