-- ==== Sys2Proof/Tests/Slice0.lean ====
section
/-! SUPPORT. The model's own tests: terms the checks refuse, words written out from the formats, the
vectors of spec/95_test_vectors.md one step at a time, and for every statement with hypotheses a
concrete state and operands that meet them. -/

namespace Sys2Proof.Tests

open Sys2Proof Sys2Proof.Machine

/-! ## Helpers -/

/-- A block with `n` bits, spelled as bytes, and a text at its text port. -/
def live (n : Nat) (buf : List Byte) (text : List Byte) : State :=
  { State.reset with accS := (byteBits buf).take n, text := text }

/-- The same block, consumed. -/
def spent (n : Nat) (buf : List Byte) (text : List Byte) : State :=
  { live n buf text with accActive := false }

/-- The block's state after an outcome, as the vectors write it: BUF, SHIFT, active, FAULT. -/
def ends (o : Host.Outcome State Fault Refusal) : Option (List Byte × Nat × Bool × BitVec 4) :=
  match o with
  | .next t => some (bytesOf t.accS, shiftOf t.accS, t.accActive, t.fault)
  | .fault _ => none
  | .refused _ => none

/-- The next state of an outcome. -/
def nextOf (o : Host.Outcome State Fault Refusal) : Option State :=
  match o with
  | .next t => some t
  | .fault _ => none
  | .refused _ => none

/-- The response of an outcome. -/
def answers (o : Host.Outcome State Fault Refusal) : Option Response :=
  match o with
  | .next t => t.response
  | .fault _ => none
  | .refused _ => none

/-- An OK response with a mode, bytes and a shift. -/
def okWith (active : Bool) (mode : Option ModeField) (bytes : Option (List Byte))
    (shift : Option (BitVec 3)) : Response :=
  { status := .ok, fault := 0, active := active, mode := mode, bytes := bytes, shift := shift }

/-! ## WellFormed -/

theorem test_wellFormed_refuses_width_zero : WellFormed (.push 0 0) = false := by decide
theorem test_wellFormed_refuses_width_seventeen : WellFormed (.push 0 17) = false := by decide
theorem test_wellFormed_takes_both_ends :
    WellFormed (.push 0 1) = true ∧ WellFormed (.push 0xFFFF 16) = true := by decide

/-! ## Decoding: words written out bit by bit from 30_encoding.md R71 -/

theorem test_decode_new : decode 0b00010000000000001000000000000001#32 = .command (.new 0x8001) := by
  decide
theorem test_decode_push :
    decode 0b00100000000011111000000000000001#32 = .command (.push 0x8001 16) := by decide
theorem test_decode_push_width_one :
    decode 0b00100000000000000000000000000001#32 = .command (.push 1 1) := by decide
theorem test_decode_pushb : decode 0b00110000000000000000000010000001#32 = .command (.pushb 0x81) := by
  decide
theorem test_decode_parts : decode 0b01000000000000000000000000000000#32 = .command .parts := by decide
theorem test_decode_analyze :
    decode 0b01010000000000000000000000000000#32 = .command .analyze := by decide
theorem test_decode_hdr :
    decode 0b01100000000000000000001000101000#32 = .command (.hdr .byte 40) := by decide
theorem test_decode_hdr_numeric :
    decode 0b01100000000000000000000000111111#32 = .command (.hdr .numeric 63) := by decide
theorem test_decode_dnum : decode 0b01110000000000000000000000000000#32 = .command .dnum := by decide
theorem test_decode_dalnum : decode 0b10000000000000000000000000000000#32 = .command .dalnum := by
  decide
theorem test_decode_dbyte : decode 0b10010000000000000000000000000000#32 = .command .dbyte := by decide
theorem test_decode_finish :
    decode 0b10100000000000001000000000000001#32 = .command (.finish 0x8001) := by decide
theorem test_decode_encode :
    decode 0b10110000000000000000000100000001#32 = .command (.encode 1 .M) := by decide
theorem test_decode_encode_levels :
    decode 0b10110000000000000000000000101000#32 = .command (.encode 40 .L) ∧
    decode 0b10110000000000000000001000101000#32 = .command (.encode 40 .Q) := by decide

/-- VI1 to VI6, VI12 and VI20. -/
theorem test_decode_refuses_by_name :
    decode 0x00000000#32 = .illegal .reservedOpcode ∧
    decode 0xC0000000#32 = .illegal .reservedOpcode ∧
    decode 0xF0000000#32 = .illegal .reservedOpcode ∧
    decode 0x10010000#32 = .illegal .nonzeroField ∧
    decode 0x60000301#32 = .illegal .reservedMode ∧
    decode 0xB0000081#32 = .illegal .nonzeroField := by decide

theorem test_decodeTableWord :
    decodeTableWord 32 0x20030001 = some (.push 1 4) ∧ decodeTableWord 32 0x28000001 = none := by
  decide

/-- The words of the assembler's table (R80), from P1 and V-ENC. -/
theorem test_encode :
    encode (.push 0xABCD 16) = 0x200FABCD#32 ∧ encode (.hdr .alphanumeric 27) = 0x6000011B#32 ∧
    encode (.encode 4 .H) = 0xB0000304#32 ∧ encode (.new 19) = 0x10000013#32 := by decide

/-! ## The vectors of spec/95_test_vectors.md, one command each -/

/-- VQ20. -/
theorem test_new_discards :
    ends (exec (.new 100) (live 4 [0x10] [])) = some ([], 0, true, 0) := by decide

/-- VU23: SHIFT 7, two boundaries. -/
theorem test_push_two_boundaries :
    ends (exec (.push 0xAAAA 16) (live 7 [0xFE] [])) =
      some ([0xFF, 0x55, 0x54], 7, true, 0) := by decide

/-- VQ16: NOT_ACTIVE wins over PUSH_OPERAND. -/
theorem test_push_not_active_first :
    ends (exec (.push 16 4) (spent 0 [] [])) = some ([], 0, false, 3) := by decide

/-- VQ2: four zero bits skipped. -/
theorem test_pushb_aligns :
    ends (exec (.pushb 0xEC) (live 4 [0x10] [])) = some ([0x10, 0xEC], 0, true, 0) := by decide

/-- VQ17. -/
theorem test_pushb_not_active :
    ends (exec (.pushb 0) (spent 0 [] [])) = some ([], 0, false, 3) := by decide

/-- VQ9. -/
theorem test_parts_answers :
    answers (exec .parts (live 17 [0xFF, 0xFF, 0x80] [])) =
      some (okWith false none (some [0xFF, 0xFF, 0x80]) (some 1)) := by decide

/-- VQ18. -/
theorem test_parts_twice : ends (exec .parts (spent 0 [] [])) = some ([], 0, false, 3) := by decide

/-- VA16: "A1b". -/
theorem test_analyze_byte :
    answers (exec .analyze (live 0 [] [0x41, 0x31, 0x62])) =
      some (okWith true (some { code := 0b10, indicator := 0b0100 }) none none) := by decide

/-- VA29: "1" on a consumed accumulator. -/
theorem test_analyze_consumed :
    answers (exec .analyze (spent 0 [] [0x31])) =
      some (okWith false (some { code := 0b00, indicator := 0b0001 }) none none) := by decide

/-- VH17: five scalars in six bytes. -/
theorem test_hdr_counts_scalars :
    ends (exec (.hdr .byte 1) (live 0 [] [0x41, 0x42, 0x31, 0x32, 0xC3, 0xA9])) =
      some ([0x40, 0x50], 4, true, 0) := by decide

/-- VHF8: an encoded surrogate. -/
theorem test_hdr_surrogate :
    ends (exec (.hdr .byte 1) (live 0 [] [0xED, 0xA0, 0x80])) = some ([], 0, true, 4) := by decide

/-- P7, step 2: a final pair. -/
theorem test_dnum_pair :
    ends (exec .dnum (live 13 [0x20, 0x10] [0x31, 0x32])) =
      some ([0x20, 0x10, 0xC0], 4, true, 0) := by decide

/-- W2's data: five triples and a pair after the header. -/
theorem test_dnum_triples :
    ends (exec .dnum (live 14 [0x10, 0x44] (List.replicate 17 0x39))) =
      some ([0x10, 0x47, 0xE7, 0xF9, 0xFE, 0x7F, 0x9F, 0xE7, 0xC6], 7, true, 0) := by decide +kernel

/-- The example of R137: "AB". -/
theorem test_dalnum_pair :
    ends (exec .dalnum (live 0 [] [0x41, 0x42])) = some ([0x39, 0xA0], 3, true, 0) := by decide

/-- P7, step 3: a pair of digits at SHIFT 4. -/
theorem test_dalnum_digits :
    ends (exec .dalnum (live 20 [0x20, 0x10, 0xC0] [0x31, 0x32])) =
      some ([0x20, 0x10, 0xC0, 0x5E], 7, true, 0) := by decide

/-- The example of R139: "é" at SHIFT 4. -/
theorem test_dbyte_straddles :
    ends (exec .dbyte (live 4 [0x40] [0xC3, 0xA9])) = some ([0x4C, 0x3A, 0x90], 4, true, 0) := by
  decide

/-- R139: every byte value is legal, and the empty text appends nothing. -/
theorem test_dbyte_empty : ends (exec .dbyte (live 4 [0x40] [])) = some ([0x40], 4, true, 0) := by
  decide

/-- P7, step 4: SHIFT 7 leaves one free bit, so a terminator byte. -/
theorem test_finish_terminator :
    answers (exec (.finish 5) (live 31 [0x20, 0x10, 0xC0, 0x5E] [])) =
      some (okWith false none (some [0x20, 0x10, 0xC0, 0x5E, 0x00]) none) := by decide

/-- As P4, step 6, with two bytes for one: the overflow consumes the accumulator and keeps its bits; no bytes are returned. -/
theorem test_finish_overflow :
    nextOf (exec (.finish 1) (live 9 [0x10, 0x80] [])) =
      some { spent 9 [0x10, 0x80] [] with
             response := some (bareResponse .capacityExceeded 0 false) } := by decide

/-- W1. -/
theorem test_encode_nine :
    answers (exec (.encode 1 .H) (live 0 [] [0x39])) =
      some (okWith false (some { code := 0b00, indicator := 0b0001 })
        (some [0x10, 0x06, 0x40, 0xEC, 0x11, 0xEC, 0x11, 0xEC, 0x11]) none) := by decide

/-- VE17: "é". -/
theorem test_encode_byte :
    answers (exec (.encode 1 .H) (spent 4 [0x10] [0xC3, 0xA9])) =
      some (okWith false (some { code := 0b10, indicator := 0b0100 })
        (some [0x40, 0x1C, 0x3A, 0x90, 0xEC, 0x11, 0xEC, 0x11, 0xEC]) none) := by decide

/-! ## The step, the command port and reset -/

/-- VI23, its last word: NEW is refused with the recorded fault, the bits kept. -/
theorem test_sticky_refusal :
    nextOf (perform 0x10000000 { live 4 [0x10] [] with fault := 1 }) =
      some { live 4 [0x10] [] with
             fault := 1, response := some (bareResponse .fault 1 true) } := by decide

/-- P5, step 6. -/
theorem test_reset_move :
    ends (step { live 4 [0x90] [] with fault := 5, pending := [.reset] }) =
      some ([], 0, true, 0) := by decide

/-- The command port: a word placed there is the next one performed. -/
theorem test_withFetchWord :
    nextOf (step (State.withFetchWord State.reset 32 0x20030001)) =
      some { live 4 [0x10] [] with response := some (bareResponse .ok 0 true) } := by decide

/-! ## UTF-8, the tables and the assembler -/

/-- R131: the ends of the sequences of each length are valid. -/
theorem test_utf8_valid :
    validUtf8 [0x7F, 0xC2, 0x80, 0xDF, 0xBF, 0xE0, 0xA0, 0x80, 0xED, 0x9F, 0xBF, 0xEE, 0x80, 0x80] =
        true ∧
      validUtf8 [0xF0, 0x90, 0x80, 0x80, 0xF4, 0x8F, 0xBF, 0xBF] = true := by decide

/-- R131: stray, truncated, overlong, surrogate, above U+10FFFF. -/
theorem test_utf8_invalid :
    validUtf8 [0x80] = false ∧ validUtf8 [0xC3] = false ∧ validUtf8 [0xC0, 0xAF] = false ∧
    validUtf8 [0xE0, 0x9F, 0xBF] = false ∧ validUtf8 [0xED, 0xA0, 0x80] = false ∧
    validUtf8 [0xF0, 0x8F, 0xBF, 0xBF] = false ∧ validUtf8 [0xF4, 0x90, 0x80, 0x80] = false ∧
    validUtf8 [0xF8, 0x88, 0x80, 0x80] = false ∧ validUtf8 [0xFF] = false := by decide

/-- W7: the alphabet's values are 0 to 44 in table order. -/
theorem test_alphabet_in_order : alphabet.map alnumValue = List.range 45 := by decide +kernel

/-- The informative default agrees with the two pinned points (R7). -/
theorem test_default_capacity_agrees :
    Config.isoCap 1 .H = capacity 1 .H ∧ Config.isoCap 4 .H = capacity 4 .H ∧
    Config.isoCapRows.length = 40 := by decide

/-- P1, step 2, with a comment, and the pseudo-instructions of R81. -/
theorem test_assemble :
    assemble "PUSH 0x5, 3 ; three bits\nNEW\n.text \"9\\xC3\"\nSEG N, 1" =
      some
        [.command 0x20020005 [], .command 0x10000000 [], .command 0x60000001 [0x39, 0xC3],
         .command 0x70000000 [0x39, 0xC3]] := by decide +kernel

/-- The model's choice on a backslash that begins no well-formed byte (log entry 20). -/
theorem test_quoted_backslash :
    parseQuoted "a\\n\"".toList = some ([0x61, 0x5C, 0x6E], []) ∧
      parseQuoted "\\x4G\"".toList = none ∧
      parseQuoted "\\x4a\"".toList = some ([0x4A], []) := by decide

/-! ## Witnesses: for each statement with hypotheses, a state and operands that meet them -/

theorem witness_DecodeOfEncodeIsTheInstruction :
    WellFormed (.push 0xFFFF 16) = true ∧ WellFormed (.hdr .byte 63) = true := by decide

theorem witness_DecodedWordIsTheEncodingOfItsCommand :
    decode 0xB000033F#32 = .command (.encode 63 .H) := by decide

theorem witness_IllegalWordsAreTheReservedOnesAndFault :
    State.reset.fault = 0 ∧ decode 0x0FFFFFFF#32 = .illegal .reservedOpcode ∧
    decode 0xC0000000#32 = .illegal .reservedOpcode ∧ decode 0xB0000400#32 = .illegal .nonzeroField ∧
    decode 0x60000300#32 = .illegal .reservedMode := by decide

theorem witness_StepPerformsTheDecodedCommand :
    let s := State.withFetchWord State.reset 32 0x20030001
    s.fault = 0 ∧ s.pending = [.command 0x20030001 []] ∧
      decode 0x20030001#32 = .command (.push 1 4) := by decide

theorem witness_StickyFaultRefusesEveryWord :
    ({ State.reset with fault := 6 } : State).fault ≠ 0 := by decide

theorem witness_ResetMoveRestoresTheBlockAndAloneClearsFault :
    let s := { live 4 [0x90] [] with fault := 5, pending := [.reset] }
    ∃ t, step s = .next t ∧ s.pending = [.reset] ∧ s.fault ≠ 0 ∧ t.fault = 0 :=
  ⟨_, rfl, rfl, by decide, by decide⟩

theorem witness_IdleBlockHoldsItsState : State.reset.pending = [] := by decide

theorem witness_EveryStepGoesOnAndEveryCommandResponds :
    (State.withFetchWord State.reset 32 0).pending = [.command 0 []] := by decide

theorem witness_CommandOutcomeIsAFunctionOfStateWordAndText :
    let s := live 4 [0x10] [0x39]
    let u := { s with pending := [.reset], response := some (bareResponse .ok 0 true) }
    s.accS = u.accS ∧ s.accActive = u.accActive ∧ s.fault = u.fault ∧ s.text = u.text ∧ s ≠ u := by
  decide

theorem witness_FaultEntryIsPrecise :
    ∃ t, State.reset.fault = 0 ∧ perform 0x20030010 State.reset = .next t ∧ t.fault ≠ 0 :=
  ⟨_, rfl, rfl, by decide⟩

theorem witness_LowestApplicableFaultIsReported_recorded :
    ({ State.reset with fault := 1 } : State).fault ≠ 0 ∧
      decode 0x00000000#32 = .illegal .reservedOpcode := by decide

/-- HDR N, 0 on a consumed accumulator with a text that is no digit: three faults apply. -/
theorem witness_LowestApplicableFaultIsReported_several :
    let s := spent 0 [] [0x41]
    FaultApplies .versionRange (.hdr .numeric 0) s ∧ FaultApplies .notActive (.hdr .numeric 0) s ∧
    FaultApplies .nonDigit (.hdr .numeric 0) s ∧
    (∀ d, FaultApplies d (.hdr .numeric 0) s → FaultCode.versionRange.code ≤ d.code) := by
  refine ⟨⟨0, rfl, by decide⟩, ⟨rfl, rfl⟩, ⟨rfl, 0x41, List.mem_singleton.2 rfl, ?_⟩, ?_⟩
  · unfold IsDigitByte; decide
  · intro d hd
    cases d
    · exact hd.elim
    all_goals decide

theorem witness_LowestApplicableFaultIsReported_none :
    ∀ c, ¬ FaultApplies c (.pushb 0) State.reset := by
  intro c
  cases c <;> simp [FaultApplies, versionOperand, needsActive, needsUtf8, needsDigits, State.reset]

theorem witness_RecordedFaultOutlastsEveryRunWithoutReset :
    let s := { State.reset with fault := 5, pending := [.command 0x10000000 []] }
    ∃ t, s.fault ≠ 0 ∧ HostMove.reset ∉ s.pending ∧ Host.Core.run Sys2Proof.core 2 s = .next t :=
  ⟨_, by decide, by decide, rfl⟩

theorem witness_StepKeepsTheBlockInvariant :
    ∃ t, Inv (State.withFetchWord State.reset 32 0x20030001) ∧
      step (State.withFetchWord State.reset 32 0x20030001) = .next t :=
  ⟨_, ⟨by decide, fun _ h => by cases h⟩, rfl⟩

theorem witness_PushAppendsItsFieldMostSignificantBitFirst :
    (1 ≤ 1 ∧ 16 ≤ 16) ∧ (spent 0 [] []).accActive = false ∧ (live 0 [] []).accActive = true ∧
    2 ^ 1 ≤ (2 : BitVec 16).toNat ∧ (1 : BitVec 16).toNat < 2 ^ 1 ∧
    (0xFFFF : BitVec 16).toNat < 2 ^ 16 := by decide

theorem witness_PushMeetsItsByteLevelForm :
    ∃ t, (live 7 [0xFE] []).accActive = true ∧ (0xFFFF : BitVec 16).toNat < 2 ^ 16 ∧
      exec (.push 0xFFFF 16) (live 7 [0xFE] []) = .next t :=
  ⟨_, by decide, by decide, rfl⟩

theorem witness_PushAddsTheBytesOfItsBranch :
    ∃ t, (live 4 [0xF0] []).accActive = true ∧ (1 : BitVec 16).toNat < 2 ^ 1 ∧
      exec (.push 1 1) (live 4 [0xF0] []) = .next t :=
  ⟨_, by decide, by decide, rfl⟩

theorem witness_BytesAndShiftDetermineTheBits :
    viewOf [true, false] = viewOf [true, false] ∧ viewOf [true] ≠ viewOf [true, false] := by decide

theorem witness_PushSequenceHoldsTheSumOfItsWidths :
    (∀ p ∈ ([(1, 1), (0xFFFF, 16), (0, 3)] : List (BitVec 16 × Nat)),
      1 ≤ p.2 ∧ p.2 ≤ 16 ∧ p.1.toNat < 2 ^ p.2) ∧
    State.reset.fault = 0 ∧ State.reset.accActive = true ∧ State.reset.accS = [] := by decide

theorem witness_PushbAppendsAWholeByte :
    (spent 4 [0x10] []).accActive = false ∧ (live 4 [0x10] []).accActive = true := by decide

theorem witness_PushbIsPushOfEightBitsExactlyAtAByteBoundary :
    (live 8 [0x10] []).accActive = true ∧ (live 8 [0x10] []).accS.length % 8 = 0 ∧
    (live 7 [0x10] []).accActive = true ∧ (live 7 [0x10] []).accS.length % 8 ≠ 0 := by decide

theorem witness_PartsReturnsTheBytesAndConsumes :
    (spent 0 [] []).accActive = false ∧ (live 9 [0x10, 0x80] []).accActive = true := by decide

theorem witness_ConsumedAccumulatorFaultsUntilNew_consumes :
    ∃ t u v, exec .parts State.reset = .next t ∧ t.fault = 0 ∧
      exec (.finish 0) State.reset = .next u ∧ u.fault = 0 ∧
      exec (.encode 1 .H) State.reset = .next v ∧ v.fault = 0 :=
  ⟨_, _, _, rfl, by decide, rfl, by decide, rfl, by decide⟩

theorem witness_ConsumedAccumulatorFaultsUntilNew_faults :
    needsActive (.hdr .byte 40) = true ∧ (spent 0 [] []).accActive = false ∧
      ∀ ver, versionOperand (.hdr .byte 40) = some ver → LegalVersion ver := by
  refine ⟨rfl, rfl, ?_⟩
  intro ver h
  cases h
  unfold LegalVersion
  decide

theorem witness_ConsumedAccumulatorFaultsUntilNew_legal :
    ∃ t u, (spent 0 [] []).fault = 0 ∧ needsActive .analyze = false ∧
      exec .analyze (spent 0 [] []) = .next t ∧ exec (.new 0) (spent 0 [] []) = .next u :=
  ⟨_, _, rfl, rfl, rfl, rfl⟩

/-- One text for each clause: the byte clause, the alphanumeric clause, the numeric clause at both ends
of the digits, and the empty text. -/
theorem witness_AnalyzeAnswersTheMostGeneralModeRequired :
    (∃ b ∈ ([0x31, 0x3B] : List Byte), alnumOf b = none) ∧
    (∀ b ∈ ([0x31, 0x3A] : List Byte), alnumOf b ≠ none) ∧
    (∃ b ∈ ([0x31, 0x3A] : List Byte), ¬ IsDigitByte b) ∧
    (∀ b ∈ ([0x30, 0x39] : List Byte), IsDigitByte b) := by
  unfold IsDigitByte
  decide

theorem witness_SelectedModeGuaranteesItsEncoder :
    modeOf [0x30, 0x39] = .numeric ∧ modeOf [0x5A, 0x20] = .alphanumeric := by decide

/-- Both ends of the versions, a version on each side of the range, and the texts of each check. -/
theorem witness_HdrInjectsTheIndicatorAndTheTruncatedCount :
    (¬ LegalVersion 0 ∧ ¬ LegalVersion 41) ∧
    (LegalVersion 1 ∧ (spent 0 [] [0x41]).accActive = false) ∧
    (LegalVersion 40 ∧ (live 0 [] [0x2F]).accActive = true ∧
      ∃ b ∈ (live 0 [] [0x2F]).text, ¬ IsDigitByte b) ∧
    (LegalVersion 1 ∧ (live 0 [] [0xC3]).accActive = true ∧ Mode.byte ≠ .numeric ∧
      validUtf8 (live 0 [] [0xC3]).text = false) ∧
    (LegalVersion 40 ∧ (live 0 [] [0x30, 0x39]).accActive = true ∧
      ∀ b ∈ (live 0 [] [0x30, 0x39]).text, IsDigitByte b) ∧
    (LegalVersion 1 ∧ (live 0 [] [0xC3, 0xA9]).accActive = true ∧
      validUtf8 (live 0 [] [0xC3, 0xA9]).text = true) := by
  unfold LegalVersion IsDigitByte
  decide

/-- A text of each length modulo 3, a consumed block, and a text with a byte past '9'. -/
theorem witness_DnumAppendsDigitTriplesAndRemainder :
    (spent 0 [] []).accActive = false ∧
    ((live 0 [] [0x30, 0x3A]).accActive = true ∧
      ∃ b ∈ (live 0 [] [0x30, 0x3A]).text, ¬ IsDigitByte b) ∧
    (let s := live 0 [] [0x30, 0x39, 0x31, 0x39]
     s.accActive = true ∧ (∀ b ∈ s.text, IsDigitByte b) ∧ 0 < s.text.length / 3 ∧
       s.text.length % 3 = 1) ∧
    (let s := live 6 [0x10] [0x30, 0x39]
     s.accActive = true ∧ (∀ b ∈ s.text, IsDigitByte b) ∧ s.text.length % 3 = 2) := by
  unfold IsDigitByte
  decide

theorem witness_DalnumAppendsSymbolPairsAndRemainder :
    (spent 0 [] []).accActive = false ∧ (live 0 [] [0x41, 0x61, 0x3A]).accActive = true ∧
    0 < (live 0 [] [0x41, 0x61, 0x3A]).text.length / 2 ∧
    (live 0 [] [0x41, 0x61, 0x3A]).text.length % 2 = 1 := by decide

theorem witness_DbyteAppendsEveryByteVerbatim :
    (spent 0 [] []).accActive = false ∧ (live 0 [] [0x00, 0xFF]).accActive = true ∧
    1 < (live 0 [] [0x00, 0xFF]).text.length := by decide

/-- The scalars at the ends of each encoding, on each side of the surrogates. -/
theorem witness_ValidTextIsTheEncodingOfItsScalars :
    (∀ c ∈ [0x7F, 0x80, 0x7FF, 0x800, 0xD7FF, 0xE000, 0xFFFF, 0x10000, 0x10FFFF],
      c < 0xD800 ∨ (0xDFFF < c ∧ c ≤ 0x10FFFF)) ∧
    [0x7F, 0x80, 0x7FF, 0x800, 0xFFFF, 0x10FFFF].flatMap utf8Encode =
      ([0x7F, 0xC2, 0x80, 0xDF, 0xBF, 0xE0, 0xA0, 0x80, 0xEF, 0xBF, 0xBF, 0xF4, 0x8F, 0xBF, 0xBF] :
        List Byte) := by decide

/-- 2^14 digits at version 40, and 2^8 letters at version 1. -/
theorem witness_TruncatedCountNeverFitsTheDefaultCapacity :
    (modeOf (List.replicate (2 ^ 14) 0x31) = .numeric ∧
      2 ^ countWidthOf 40 .numeric ≤ charCount .numeric (List.replicate (2 ^ 14) 0x31)) ∧
    modeOf (List.replicate 256 0x61) = .byte ∧
      2 ^ countWidthOf 1 .byte ≤ charCount .byte (List.replicate 256 0x61) := by
  refine ⟨⟨?_, ?_⟩, by decide +kernel, by decide +kernel⟩
  · rw [modeOf_eq_numeric_iff]
    intro b hb
    rw [List.eq_of_mem_replicate hb]
    decide
  · rw [charCount, List.length_replicate]
    decide

/-- A header that is performed and one that faults. -/
theorem witness_SegAppendsTheSegmentOrIsRefusedWhole :
    (let s := { State.reset with pending := assembleFrom [0x39] [.pseudo (.seg .numeric 1)] }
     ∃ t, s.fault = 0 ∧ step s = .next t ∧ t.fault = 0) ∧
    (let s := { State.reset with pending := assembleFrom [0x41] [.pseudo (.seg .numeric 1)] }
     ∃ t, s.fault = 0 ∧ step s = .next t ∧ t.fault ≠ 0) :=
  ⟨⟨_, rfl, rfl, by decide⟩, ⟨_, rfl, rfl, by decide⟩⟩

theorem witness_PushzAppendsZeroBits :
    let s := { State.reset with pending := assembleFrom [] [.pseudo (.pushz 16)] }
    s.fault = 0 ∧ s.accActive = true ∧ s.pending = [.command 0x200F0000 []] := by decide

/-- Content longer than, as long as and shorter than the codewords, with and without a terminator
byte. -/
theorem witness_FinishTerminatesAndPadsOrOverflows :
    (spent 0 [] []).accActive = false ∧ (live 9 [0x10, 0x80] []).accActive = true ∧
    (1 : BitVec 16).toNat < byteLen (live 9 [0x10, 0x80] []).accS ∧
    byteLen (live 9 [0x10, 0x80] []).accS ≤ (2 : BitVec 16).toNat ∧
    terminatorBytes (live 9 [0x10, 0x80] []).accS.length 2 = 0 ∧
    terminatorBytes (live 5 [0x10] []).accS.length 3 = 1 ∧
    terminatorBytes (live 8 [0x10] []).accS.length 1 = 0 ∧
    terminatorBytes (live 0 [] []).accS.length 1 = 1 := by decide

/-- Seven bits in one codeword: one terminator bit. -/
theorem witness_FinishedContentIsFollowedByTheTerminator :
    ∃ t r b, (live 7 [0xFE] []).accActive = true ∧
      exec (.finish 1) (live 7 [0xFE] []) = .next t ∧ t.response = some r ∧ r.bytes = some b ∧
      (live 7 [0xFE] []).accS.length ≤ 7 ∧ 7 < 8 * (1 : BitVec 16).toNat :=
  ⟨_, _, _, by decide, rfl, rfl, rfl, by decide, by decide⟩

/-- "9" fits CAP(1, H); eighteen nines do not (VE12). -/
theorem witness_EncodeLeavesTheSegmentAndAnswersItsCodewords :
    (¬ LegalVersion 0 ∧ ¬ LegalVersion 41 ∧ LegalVersion 1) ∧
    validUtf8 (live 0 [] [0xFF]).text = false ∧ validUtf8 (live 0 [] [0x39]).text = true ∧
    segBits .numeric 1 [0x39] ≤ 8 * capacity 1 .H ∧
    8 * capacity 1 .H < segBits .numeric 1 (List.replicate 18 0x39) := by
  unfold LegalVersion
  decide

theorem witness_EncodeSucceedsExactlyWhenTheSegmentFits :
    LegalVersion 40 ∧ validUtf8 (live 0 [] [0xC3, 0xA9]).text = true := by
  unfold LegalVersion
  decide

theorem witness_EncodeIgnoresTheAccumulatorItFinds :
    LegalVersion 1 ∧ validUtf8 (spent 4 [0x10] [0x39]).text = true := by
  unfold LegalVersion
  decide

theorem witness_EncodeEqualsNewHdrDataFinish :
    State.reset.fault = 0 ∧ LegalVersion 1 ∧ validUtf8 [0x39] = true ∧
    (9 : BitVec 16).toNat = capacity (1 : BitVec 6).toNat .H := by
  unfold LegalVersion
  decide

/-- DNUM and NEW on the empty text: both bounds are open, so a text and a buffer of length 0 are what
every value of them admits. -/
theorem witness_DutifulHostKeepsTheLiveBufferBounded :
    let s := { State.reset with pending := [.command 0x70000000 [], .command 0x10000000 []] }
    ∃ t, HostDutiesMet 2 s ∧ LiveBufferBounded s ∧ Host.Core.run Sys2Proof.core 2 s = .next t := by
  refine ⟨_, ⟨?_, fun t ht => ⟨?_, fun _ _ => trivial⟩⟩, fun _ => Nat.zero_le _, rfl⟩
  · intro w text rest i hp _ hd
    cases hp
    cases hd
    refine ⟨fun _ => Nat.zero_le _, fun _ t ht _ => ?_⟩
    cases ht
    exact Nat.zero_le _
  · cases ht
    intro w text rest i hp _ hd
    cases hp
    cases hd
    exact ⟨fun h => absurd h Bool.false_ne_true, fun h => absurd h Bool.false_ne_true⟩

theorem witness_AccumulatorIsAppendOnly :
    ∃ t u, exec (.push 1 4) (live 4 [0x10] []) = .next t ∧ replacesBits (.push 1 4) = false ∧
      exec .analyze (live 4 [0x10] []) = .next u :=
  ⟨_, _, rfl, rfl, rfl⟩

theorem witness_TextIsReadOnlyAndReadBySixCommands :
    ∃ t, exec .dbyte (live 0 [] [0x41]) = .next t ∧ readsText (.finish 9) = false :=
  ⟨_, rfl, rfl⟩

end Sys2Proof.Tests
end

section
/-! PROOFS. The state after reset (10_state.md R33). LEN and SHIFT of the empty accumulator are lemmas
about the two views, and reset's own part is the value of each of its fields. -/

namespace Sys2Proof.Machine

@[simp] theorem byteLen_nil : byteLen [] = 0 := rfl

@[simp] theorem shiftOf_nil : shiftOf [] = 0 := rfl

@[simp] theorem State.reset_accS : State.reset.accS = [] := rfl

@[simp] theorem State.reset_accActive : State.reset.accActive = true := rfl

@[simp] theorem State.reset_fault : State.reset.fault = 0 := rfl

/-- Settles O7: reset leaves no bits, so both views are those of the empty list. -/
theorem resetLeavesAnEmptyLiveAccumulatorAndNoFault :
    Obligations.ResetLeavesAnEmptyLiveAccumulatorAndNoFault := by
  have hlen : byteLen State.reset.accS = 0 := by rw [State.reset_accS, byteLen_nil]
  have hshift : shiftOf State.reset.accS = 0 := by rw [State.reset_accS, shiftOf_nil]
  exact ⟨State.reset_accS, hlen, hshift, State.reset_accActive, State.reset_fault⟩

end Sys2Proof.Machine
end

section
/-! PROOFS. What a command's outcome depends on (20_memory.md R56): the operations take two states that
agree on the block and the text to states that agree again, and every meaning is built from them. -/

namespace Sys2Proof.Machine

/-- The two states agree on what R56 lets a command read: the block's state and the text. -/
structure SameInput (s u : State) : Prop where
  accS : s.accS = u.accS
  accActive : s.accActive = u.accActive
  fault : s.fault = u.fault
  text : s.text = u.text

/-- The two states agree on what R56 determines: the block's state and the response. -/
structure SameResult (t v : State) : Prop where
  accS : t.accS = v.accS
  accActive : t.accActive = v.accActive
  fault : t.fault = v.fault
  response : t.response = v.response

/-- Both outcomes go on, to the same result. -/
def SameOutcome (o p : Host.Outcome State Fault Refusal) : Prop :=
  ∃ t v, o = .next t ∧ p = .next v ∧ SameResult t v

theorem SameResult.next {t v : State} (h : SameResult t v) : SameOutcome (.next t) (.next v) :=
  ⟨t, v, rfl, rfl, h⟩

namespace SameInput

variable {s u : State}

theorem append (h : SameInput s u) (bits : List Bool) : SameInput (s.append bits) (u.append bits) :=
  ⟨by simp [h.accS], h.accActive, h.fault, h.text⟩

theorem fresh (h : SameInput s u) : SameInput s.fresh u.fresh :=
  ⟨rfl, rfl, h.fault, h.text⟩

theorem consume (h : SameInput s u) : SameInput s.consume u.consume :=
  ⟨h.accS, rfl, h.fault, h.text⟩

theorem respond (h : SameInput s u) (status : Status) (mode : Option ModeField)
    (bytes : Option (List Byte)) (shift : Option (BitVec 3)) :
    SameResult (s.respond status mode bytes shift) (u.respond status mode bytes shift) :=
  ⟨h.accS, h.accActive, h.fault, by simp [h.fault, h.accActive]⟩

theorem respondOk (h : SameInput s u) : SameResult s.respondOk u.respondOk :=
  h.respond .ok none none none

theorem refuse (h : SameInput s u) : SameResult s.refuse u.refuse :=
  h.respond .fault none none none

theorem raiseFault (h : SameInput s u) (c : FaultCode) :
    SameResult (s.raiseFault c) (u.raiseFault c) :=
  ⟨h.accS, h.accActive, rfl, by simp [h.accActive]⟩

/-- The filler reads the accumulator's bits only. -/
theorem answerFinish (h : SameInput s u) (required : Nat) (mode : Option ModeField) :
    SameResult (s.answerFinish required mode) (u.answerFinish required mode) := by
  unfold State.answerFinish
  rw [h.accS]
  cases finishResult (bytesOf u.accS) (shiftOf u.accS) required with
  | none => exact h.respond _ _ _ _
  | some b => exact h.respond _ _ _ _

/-- The NOT_ACTIVE check (60_exceptions.md R184) goes the same way in both states. -/
theorem guardActive (h : SameInput s u) {t v : State} (hres : SameResult t v) :
    SameResult (if s.accActive = false then s.raiseFault .notActive else t)
      (if u.accActive = false then u.raiseFault .notActive else v) := by
  rw [h.accActive]
  split
  · exact h.raiseFault .notActive
  · exact hres

theorem execPush (h : SameInput s u) (value : BitVec 16) (width : Nat) :
    SameOutcome (execPush value width s) (execPush value width u) := by
  refine (h.guardActive ?_).next
  split
  · exact h.raiseFault .pushOperand
  · exact (h.append _).respondOk

/-- The alignment bits are those of the accumulator's own length. -/
theorem execPushb (h : SameInput s u) (value : BitVec 8) :
    SameOutcome (execPushb value s) (execPushb value u) := by
  refine (h.guardActive ?_).next
  rw [h.accS]
  exact (h.append _).respondOk

theorem execParts (h : SameInput s u) : SameOutcome (execParts s) (execParts u) := by
  refine (h.guardActive ?_).next
  rw [h.accS]
  exact h.consume.respond _ _ _ _

theorem execAnalyze (h : SameInput s u) : SameOutcome (execAnalyze s) (execAnalyze u) := by
  unfold Machine.execAnalyze
  rw [h.text]
  exact (h.respond _ _ _ _).next

theorem execHdr (h : SameInput s u) (mode : Mode) (ver : BitVec 6) :
    SameOutcome (execHdr mode ver s) (execHdr mode ver u) := by
  unfold Machine.execHdr
  rw [h.text]
  cases bandOf ver.toNat with
  | none => exact (h.raiseFault .versionRange).next
  | some band =>
    refine (h.guardActive ?_).next
    cases textFault mode u.text with
    | some c => exact h.raiseFault c
    | none => exact (h.append _).respondOk

theorem execDnum (h : SameInput s u) : SameOutcome (execDnum s) (execDnum u) := by
  refine (h.guardActive ?_).next
  rw [h.text]
  cases textFault .numeric u.text with
  | some c => exact h.raiseFault c
  | none => exact (h.append _).respondOk

theorem execDalnum (h : SameInput s u) : SameOutcome (execDalnum s) (execDalnum u) := by
  refine (h.guardActive ?_).next
  rw [h.text]
  exact (h.append _).respondOk

theorem execDbyte (h : SameInput s u) : SameOutcome (execDbyte s) (execDbyte u) := by
  refine (h.guardActive ?_).next
  rw [h.text]
  exact (h.append _).respondOk

theorem execFinish (h : SameInput s u) (required : BitVec 16) :
    SameOutcome (execFinish required s) (execFinish required u) :=
  (h.guardActive (h.consume.answerFinish required.toNat none)).next

theorem execEncode (h : SameInput s u) (ver : BitVec 6) (ec : ECLevel) :
    SameOutcome (execEncode ver ec s) (execEncode ver ec u) := by
  unfold Machine.execEncode
  rw [h.text]
  refine SameResult.next ?_
  cases bandOf ver.toNat with
  | none => exact h.raiseFault .versionRange
  | some band =>
    dsimp only
    split
    · exact h.raiseFault .textNotUtf8
    · exact (h.fresh.append _).consume.answerFinish _ _

theorem exec (h : SameInput s u) (i : Instr) : SameOutcome (exec i s) (exec i u) := by
  cases i with
  | new hint => exact h.fresh.respondOk.next
  | push value width => exact h.execPush value width
  | pushb value => exact h.execPushb value
  | parts => exact h.execParts
  | analyze => exact h.execAnalyze
  | hdr mode ver => exact h.execHdr mode ver
  | dnum => exact h.execDnum
  | dalnum => exact h.execDalnum
  | dbyte => exact h.execDbyte
  | finish required => exact h.execFinish required
  | encode ver ec => exact h.execEncode ver ec

theorem perform (h : SameInput s u) (w : Word) : SameOutcome (perform w s) (perform w u) := by
  by_cases hf : s.fault = 0
  · have hfu : u.fault = 0 := h.fault ▸ hf
    cases hd : decode w with
    | illegal why =>
      rw [perform_of_illegal hf hd, perform_of_illegal hfu hd]
      exact (h.raiseFault .illegalCommand).next
    | command i =>
      rw [perform_of_command hf hd, perform_of_command hfu hd]
      exact h.exec i
  · have hfu : u.fault ≠ 0 := h.fault ▸ hf
    rw [perform_of_fault hf, perform_of_fault hfu]
    exact h.refuse.next

end SameInput

/-- Settles O11: the recorded fault and the decoder send both states the same way, and every command
keeps the agreement. -/
theorem commandOutcomeIsAFunctionOfStateWordAndText :
    Obligations.CommandOutcomeIsAFunctionOfStateWordAndText := by
  intro s u w hS hactive hfault htext
  have hin : SameInput s u := ⟨hS, hactive, hfault, htext⟩
  obtain ⟨t, v, hs, hu, hout⟩ := hin.perform w
  exact ⟨t, v, hs, hu, hout.accS, hout.accActive, hout.fault, hout.response⟩

end Sys2Proof.Machine
end

section
/-! PROOFS. The words of NEW, PUSH, PUSHB and PARTS, written out as R80 gives them, decode to their
commands (30_encoding.md R79). -/

namespace Sys2Proof

theorem decode_of_new {w : Word} (h : field w 31 28 = 0x1) :
    decode w = whenZero w 27 16 (.command (.new (BitVec.ofNat 16 (field w 15 0)))) := by
  simp only [decode, h]

theorem decode_of_push {w : Word} (h : field w 31 28 = 0x2) :
    decode w = whenZero w 27 20
      (.command (.push (BitVec.ofNat 16 (field w 15 0)) (field w 19 16 + 1))) := by
  simp only [decode, h]

theorem decode_of_pushb {w : Word} (h : field w 31 28 = 0x3) :
    decode w = whenZero w 27 8 (.command (.pushb (BitVec.ofNat 8 (field w 7 0)))) := by
  simp only [decode, h]

/-- The bits between the opcode and a low part of `n` bits are 0. -/
theorem field_opWord_above {op low n : Nat} (ho : op < 16) (hl : low < 2 ^ n) (hn : n ≤ 27) :
    field (opWord op low) 27 n = 0 := by
  have hlow : low < 2 ^ 28 := hl.trans_le (Nat.pow_le_pow_right (by decide) (by omega))
  rw [field_opWord_low ho hlow hn (by decide), Nat.div_eq_of_lt hl, Nat.zero_mod]

theorem decode_newWord (hint : BitVec 16) :
    decode (0x10000000#32 ||| hint.setWidth 32) = .command (.new hint) := by
  have hlow : hint.toNat < 2 ^ 28 := hint.isLt.trans (by decide)
  have hword : 0x10000000#32 ||| hint.setWidth 32 = opWord 0x1 hint.toNat :=
    opWord_eq_or 0x1 hint (by decide) (by decide)
  have hhint : field (opWord 0x1 hint.toNat) 15 0 = hint.toNat := by
    rw [field_opWord_low (by decide) hlow (by decide) (by decide)]; omega
  rw [hword, decode_of_new (field_opWord_op (by decide) hlow),
    whenZero_of_eq _ (field_opWord_above (by decide) hint.isLt (by decide)), hhint,
    BitVec.ofNat_toNat, BitVec.setWidth_eq]

theorem decode_pushWord (value : BitVec 16) {width : Nat} (h1 : 1 ≤ width) (h16 : width ≤ 16) :
    decode (0x20000000#32 ||| BitVec.ofNat 32 (width - 1) <<< 16 ||| value.setWidth 32) =
      .command (.push value width) := by
  have hvalue := value.isLt
  have hlow : (width - 1) * 2 ^ 16 + value.toNat < 2 ^ 20 := by omega
  have hlow28 : (width - 1) * 2 ^ 16 + value.toNat < 2 ^ 28 := hlow.trans (by decide)
  have hword : 0x20000000#32 ||| BitVec.ofNat 32 (width - 1) <<< 16 ||| value.setWidth 32 =
      opWord 0x2 ((width - 1) * 2 ^ 16 + value.toNat) :=
    opWord_eq_or_or 0x2 (width - 1) value (by decide) (by decide) (by omega)
  have hwm1 : field (opWord 0x2 ((width - 1) * 2 ^ 16 + value.toNat)) 19 16 = width - 1 := by
    rw [field_opWord_low (by decide) hlow28 (by decide) (by decide)]; omega
  have hval : field (opWord 0x2 ((width - 1) * 2 ^ 16 + value.toNat)) 15 0 = value.toNat := by
    rw [field_opWord_low (by decide) hlow28 (by decide) (by decide)]; omega
  rw [hword, decode_of_push (field_opWord_op (by decide) hlow28),
    whenZero_of_eq _ (field_opWord_above (by decide) hlow (by decide)), hval, hwm1,
    BitVec.ofNat_toNat, BitVec.setWidth_eq, Nat.sub_add_cancel h1]

theorem decode_pushbWord (value : BitVec 8) :
    decode (0x30000000#32 ||| value.setWidth 32) = .command (.pushb value) := by
  have hlow : value.toNat < 2 ^ 28 := value.isLt.trans (by decide)
  have hword : 0x30000000#32 ||| value.setWidth 32 = opWord 0x3 value.toNat :=
    opWord_eq_or 0x3 value (by decide) (by decide)
  have hval : field (opWord 0x3 value.toNat) 7 0 = value.toNat := by
    rw [field_opWord_low (by decide) hlow (by decide) (by decide)]; omega
  rw [hword, decode_of_pushb (field_opWord_op (by decide) hlow),
    whenZero_of_eq _ (field_opWord_above (by decide) value.isLt (by decide)), hval,
    BitVec.ofNat_toNat, BitVec.setWidth_eq]

theorem decode_partsWord : decode 0x40000000#32 = .command .parts := by decide

end Sys2Proof
end

section
/-! PROOFS. The byte view after PUSHB's alignment and byte (41_accumulator.md R105). -/

namespace Sys2Proof.Machine

/-- The zero bits up to the next byte boundary; none at a boundary. -/
def alignment (bits : List Bool) : List Bool :=
  zeros ((8 - shiftOf bits) % 8)

@[simp] theorem length_alignment (bits : List Bool) :
    (alignment bits).length = (8 - bits.length % 8) % 8 :=
  length_zeros _

theorem length_append_alignment_mod (bits : List Bool) :
    (bits ++ alignment bits).length % 8 = 0 := by
  rw [List.length_append, length_alignment]; omega

theorem byteLen_append_alignment (bits : List Bool) :
    byteLen (bits ++ alignment bits) = byteLen bits := by
  rw [byteLen, byteLen, List.length_append, length_alignment]; omega

/-- The alignment fills the last byte only, so the appended byte is a new one. -/
theorem bytesOf_append_alignment_byte (bits : List Bool) (value : Byte) :
    bytesOf (bits ++ (alignment bits ++ bitsOf 8 value.toNat)) = bytesOf bits ++ [value] := by
  rw [← List.append_assoc, bytesOf_append _ (length_append_alignment_mod bits),
    bytesOf_bitsOf_eight, alignment, bytesOf_append_zeros (byteLen_append_alignment bits)]

end Sys2Proof.Machine
end

section
/-! PROOFS. What each accumulator command answers on a live and on a consumed accumulator
(41_accumulator.md R100 to R107). -/

namespace Sys2Proof.Machine

/-- The NOT_ACTIVE check (60_exceptions.md R184) on a consumed accumulator. -/
theorem guardActive_of_consumed {s : State} (t : State) (h : s.accActive = false) :
    (if s.accActive = false then s.raiseFault .notActive else t) = faulted s 3 :=
  if_pos h

theorem execHdr_of_consumed (mode : Mode) {ver : BitVec 6} {s : State} (hv : LegalVersion ver)
    (h : s.accActive = false) : execHdr mode ver s = .next (faulted s 3) := by
  obtain ⟨band, hband, -⟩ := bandOf_of_legal hv
  rw [execHdr, hband]
  exact congrArg Host.Outcome.next (guardActive_of_consumed _ h)

/-- Every command that needs a live accumulator makes the same check; only HDR checks its version
first. -/
theorem exec_of_consumed {i : Instr} {s : State} (hneeds : needsActive i = true)
    (h : s.accActive = false) (hver : ∀ ver, versionOperand i = some ver → LegalVersion ver) :
    exec i s = .next (faulted s 3) := by
  cases i with
  | new hint => cases hneeds
  | push value width => exact congrArg Host.Outcome.next (guardActive_of_consumed _ h)
  | pushb value => exact congrArg Host.Outcome.next (guardActive_of_consumed _ h)
  | parts => exact congrArg Host.Outcome.next (guardActive_of_consumed _ h)
  | analyze => cases hneeds
  | hdr mode ver => exact execHdr_of_consumed mode (hver ver rfl) h
  | dnum => exact congrArg Host.Outcome.next (guardActive_of_consumed _ h)
  | dalnum => exact congrArg Host.Outcome.next (guardActive_of_consumed _ h)
  | dbyte => exact congrArg Host.Outcome.next (guardActive_of_consumed _ h)
  | finish required => exact congrArg Host.Outcome.next (guardActive_of_consumed _ h)
  | encode ver ec => cases hneeds

/-- The same for the commands with no version operand. -/
theorem exec_of_consumed_of_no_version {i : Instr} {s : State} (hneeds : needsActive i = true)
    (hno : versionOperand i = none) (h : s.accActive = false) :
    exec i s = .next (faulted s 3) :=
  exec_of_consumed hneeds h fun ver hver => by simp [hno] at hver

theorem exec_push_of_overflow {value : BitVec 16} {width : Nat} {s : State}
    (h : s.accActive = true) (hv : 2 ^ width ≤ value.toNat) :
    exec (.push value width) s = .next (faulted s 5) := by
  obtain ⟨hc, -⟩ | ⟨-, -, he⟩ | ⟨-, hlt, -⟩ := execPush_cases value width s
  · simp [h] at hc
  · exact he
  · omega

theorem exec_push_of_fits {value : BitVec 16} {width : Nat} {s : State}
    (h : s.accActive = true) (hv : value.toNat < 2 ^ width) :
    exec (.push value width) s = .next (s.append (bitsOf width value.toNat)).respondOk := by
  obtain ⟨hc, -⟩ | ⟨-, hle, -⟩ | ⟨-, -, he⟩ := execPush_cases value width s
  · simp [h] at hc
  · omega
  · exact he

theorem exec_pushb_of_live (value : BitVec 8) {s : State} (h : s.accActive = true) :
    exec (.pushb value) s = .next
      (s.append (alignment s.accS ++ bitsOf 8 value.toNat)).respondOk := by
  obtain ⟨hc, -⟩ | ⟨-, he⟩ := execPushb_cases value s
  · simp [h] at hc
  · exact he

theorem exec_parts_of_live {s : State} (h : s.accActive = true) :
    exec .parts s = .next
      (s.consume.respond .ok none (some (bytesOf s.accS))
        (some (BitVec.ofNat 3 (shiftOf s.accS)))) := by
  obtain ⟨hc, -⟩ | ⟨-, he⟩ := execParts_cases s
  · simp [h] at hc
  · exact he

/-- PARTS leaves a consumed accumulator on both its paths (R106). -/
theorem exec_parts_consumes {s t : State} (ht : exec .parts s = .next t) :
    t.accActive = false := by
  obtain ⟨hc, he⟩ | ⟨-, he⟩ := execParts_cases s <;> cases he.symm.trans ht
  · exact hc
  · rfl

/-- FINISH leaves a consumed accumulator on both its paths (43_finish_and_encode.md R160). -/
theorem exec_finish_consumes {required : BitVec 16} {s t : State}
    (ht : exec (.finish required) s = .next t) : t.accActive = false := by
  obtain ⟨hc, he⟩ | ⟨-, he⟩ := execFinish_cases required s <;> cases he.symm.trans ht
  · exact hc
  · rw [State.answerFinish_accActive, State.consume_accActive]

/-- ENCODE faults with VERSION_RANGE or TEXT_NOT_UTF8, or consumes and leaves FAULT as it was
(43_finish_and_encode.md R166). -/
theorem exec_encode_faults_or_consumes {ver : BitVec 6} {ec : ECLevel} {s t : State}
    (ht : exec (.encode ver ec) s = .next t) :
    t.fault = 2 ∨ t.fault = 4 ∨ t.fault = s.fault ∧ t.accActive = false := by
  obtain ⟨-, he⟩ | ⟨-, -, he⟩ | ⟨-, -, band, -, -, he⟩ := execEncode_cases ver ec s <;>
    cases he.symm.trans ht
  · exact .inl rfl
  · exact .inr (.inl rfl)
  · exact .inr (.inr ⟨by simp, by simp⟩)

/-- The commands that need no live accumulator never fault NOT_ACTIVE (R107). -/
theorem exec_fault_ne_notActive {i : Instr} {s t : State} (hs : s.fault = 0)
    (hneeds : needsActive i = false) (ht : exec i s = .next t) : t.fault ≠ 3 := by
  cases i with
  | new hint => cases ht; simp [hs]
  | analyze => cases ht; simp [hs]
  | encode ver ec =>
    obtain h | h | ⟨h, -⟩ := exec_encode_faults_or_consumes ht
    · simp [h]
    · simp [h]
    · simp [h, hs]
  | push _ _ | pushb _ | parts | hdr _ _ | dnum | dalnum | dbyte | finish _ => cases hneeds

end Sys2Proof.Machine
end

section
/-! PROOFS. The statements about the bit accumulator (41_accumulator.md). -/

namespace Sys2Proof.Machine

/-- Settles O17: NEW makes no check, and each field of its next state is as R100 gives it. -/
theorem newGivesAnEmptyLiveAccumulator : Obligations.NewGivesAnEmptyLiveAccumulator :=
  fun hint _ => ⟨decode_newWord hint, rfl⟩

/-- Settles O18: the checks one by one; on a live accumulator a value that fits appends
`bits_width(value)`. -/
theorem pushAppendsItsFieldMostSignificantBitFirst :
    Obligations.PushAppendsItsFieldMostSignificantBitFirst := by
  intro value width s h1 h16
  refine ⟨decode_pushWord value h1 h16, exec_of_consumed_of_no_version rfl rfl,
    exec_push_of_overflow, fun ha hv => ⟨_, exec_push_of_fits ha hv, ?_, ?_, ?_, ?_⟩⟩
  · simpa using appends_respondOk (bitsOf width value.toNat) ha
  · intro k hk
    rw [State.respondOk_accS, State.append_accS,
      List.getElem?_append_right (Nat.le_add_right _ _), Nat.add_sub_cancel_left,
      getElem?_bitsOf _ hk]
    rfl
  · simp [byteLen]
  · simp [shiftOf]

/-- Settles O23: PUSHB appends the alignment and the byte, and the byte view gains just that byte. -/
theorem pushbAppendsAWholeByte : Obligations.PushbAppendsAWholeByte := by
  intro value s
  refine ⟨decode_pushbWord value, exec_of_consumed_of_no_version rfl rfl,
    fun ha => ⟨_, exec_pushb_of_live value ha, ?_⟩⟩
  have hbytes := bytesOf_append_alignment_byte s.accS value
  refine ⟨?_, hbytes, ?_, ?_⟩
  · simpa using appends_respondOk (alignment s.accS ++ bitsOf 8 value.toNat) ha
  · simpa using congrArg List.length hbytes
  · simp only [shiftOf, State.respondOk_accS, State.append_accS, List.length_append,
      length_alignment, length_bitsOf]
    omega

/-- Settles O25: the answer is the byte view, whose bits R25 gives. -/
theorem partsReturnsTheBytesAndConsumes : Obligations.PartsReturnsTheBytesAndConsumes := by
  intro s
  refine ⟨decode_partsWord, exec_of_consumed_of_no_version rfl rfl,
    fun ha => ⟨bytesOf s.accS, exec_parts_of_live ha, length_bytesOf _, ?_⟩⟩
  intro i hi j hj
  rw [length_bytesOf] at hi
  rw [getD_bytesOf hi, getLsbD_byteAt _ _ hj]

/-- Settles O26: what consumes, the one check of the eight commands, the three commands without it,
and NEW's next state. -/
theorem consumedAccumulatorFaultsUntilNew : Obligations.ConsumedAccumulatorFaultsUntilNew := by
  refine ⟨?_, fun _ _ => exec_of_consumed, fun _ _ _ => exec_fault_ne_notActive, ?_⟩
  · rintro i s t - (rfl | ⟨required, rfl⟩ | ⟨ver, ec, rfl⟩) ht hfault
    · exact exec_parts_consumes ht
    · exact exec_finish_consumes ht
    · obtain h | h | ⟨-, h⟩ := exec_encode_faults_or_consumes ht
      · simp [hfault] at h
      · simp [hfault] at h
      · exact h
  · intro hint s t ht
    cases ht
    exact ⟨rfl, rfl⟩

end Sys2Proof.Machine
end

section
/-! PROOFS. The words of HDR, DNUM, DALNUM and DBYTE, written out as R80 gives them, decode to their
commands (30_encoding.md R79). -/

namespace Sys2Proof

theorem modeOfCode_modeCode (m : Mode) : modeOfCode (modeCode m).toNat = some m := by
  cases m <;> rfl

theorem decode_of_hdr {w : Word} {m : Mode} (hop : field w 31 28 = 0x6)
    (hm : modeOfCode (field w 9 8) = some m) :
    decode w = whenZero w 27 10 (whenZero w 7 6
      (.command (.hdr m (BitVec.ofNat 6 (field w 5 0))))) := by
  simp only [decode, hop, hm]

theorem decode_opWord_hdr (mode : Mode) (ver : BitVec 6) :
    decode (opWord 0x6 ((modeCode mode).toNat * 2 ^ 8 + ver.toNat)) = .command (.hdr mode ver) := by
  have hcode := (modeCode mode).isLt
  have hver := ver.isLt
  generalize hl : (modeCode mode).toNat * 2 ^ 8 + ver.toNat = low
  have hlow : low < 2 ^ 10 := by omega
  have hlow28 : low < 2 ^ 28 := hlow.trans (by decide)
  have hsel : field (opWord 0x6 low) 9 8 = (modeCode mode).toNat := by
    rw [field_opWord_low (by decide) hlow28 (by decide) (by decide)]; omega
  have hgap : field (opWord 0x6 low) 7 6 = 0 := by
    rw [field_opWord_low (by decide) hlow28 (by decide) (by decide)]; omega
  have hval : field (opWord 0x6 low) 5 0 = ver.toNat := by
    rw [field_opWord_low (by decide) hlow28 (by decide) (by decide)]; omega
  rw [decode_of_hdr (field_opWord_op (by decide) hlow28)
      ((congrArg modeOfCode hsel).trans (modeOfCode_modeCode mode)),
    whenZero_of_eq _ (field_opWord_above (by decide) hlow (by decide)),
    whenZero_of_eq _ hgap, hval, BitVec.ofNat_toNat, BitVec.setWidth_eq]

theorem decode_hdrWord (mode : Mode) (ver : BitVec 6) :
    decode (0x60000000#32 ||| (modeCode mode).setWidth 32 <<< 8 ||| ver.setWidth 32) =
      .command (.hdr mode ver) := by
  have hcode := (modeCode mode).isLt
  have hword : 0x60000000#32 ||| (modeCode mode).setWidth 32 <<< 8 ||| ver.setWidth 32 =
      opWord 0x6 ((modeCode mode).toNat * 2 ^ 8 + ver.toNat) := by
    rw [setWidth_eq_ofNat (modeCode mode)]
    exact opWord_eq_or_or 0x6 (modeCode mode).toNat ver (by decide) (by decide) (by omega)
  rw [hword, decode_opWord_hdr]

theorem decode_dnumWord : decode 0x70000000#32 = .command .dnum := by decide

theorem decode_dalnumWord : decode 0x80000000#32 = .command .dalnum := by decide

theorem decode_dbyteWord : decode 0x90000000#32 = .command .dbyte := by decide

end Sys2Proof
end

section
/-! PROOFS. The values the segment encoders write, and their bounds (30_encoding.md R64, R65). -/

namespace Sys2Proof.Machine

theorem digitAt_drop (text : List Byte) (n k : Nat) :
    digitAt (text.drop n) k = digitAt text (n + k) := by
  simp [digitAt, List.getD_eq_getElem?_getD]

theorem alnumAt_drop (text : List Byte) (n k : Nat) :
    alnumAt (text.drop n) k = alnumAt text (n + k) := by
  simp [alnumAt, List.getD_eq_getElem?_getD]

/-- Past the end of the text the value is 0, so the bound needs no range. -/
theorem digitAt_le_nine {text : List Byte} (h : ∀ b ∈ text, IsDigitByte b) (k : Nat) :
    digitAt text k ≤ 9 := by
  unfold digitAt
  by_cases hk : k < text.length
  · rw [List.getD_eq_getElem _ _ hk]
    obtain ⟨-, hle⟩ := h _ (List.getElem_mem hk)
    omega
  · rw [List.getD_eq_default _ _ (Nat.le_of_not_lt hk)]
    decide

theorem alnumValue_lt (b : Byte) : alnumValue b < 45 := by
  unfold alnumValue
  split_ifs with h
  · exact List.idxOf_lt_length_of_mem (List.contains_iff_mem.1 h)
  · decide

/-- The symbol value DALNUM computes is the table's, 0 outside it. -/
theorem alnumValue_eq (b : Byte) : alnumValue b = (alnumOf b).getD 0 :=
  (alphabet_table b).2

theorem alnumAt_lt (text : List Byte) (k : Nat) : alnumAt text k < 45 := by
  rw [alnumAt, ← alnumValue_eq]
  exact alnumValue_lt _

end Sys2Proof.Machine
end

section
/-! PROOFS. The fields of the header and of the data bits (42_segment_encoders.md R132, R135, R137,
R139). An encoder that writes one field for each block of `c` bytes has field `k` where block `k`
begins, so one lemma over such an encoder serves DNUM, DALNUM and DBYTE. -/

namespace Sys2Proof.Machine

theorem fieldAt_bitsOf_append_right (w v : Nat) (rest : List Bool) (off n : Nat) :
    fieldAt (bitsOf w v ++ rest) (w + off) n = fieldAt rest off n := by
  simpa using fieldAt_append_right (bitsOf w v) rest off n

/-- Past `k` whole blocks the encoder goes on as it does on the text without them. -/
theorem fieldAt_after_blocks {enc : List Byte → List Bool} {val : List Byte → Nat} {c w : Nat}
    (henc : ∀ text, c ≤ text.length → enc text = bitsOf w (val text) ++ enc (text.drop c))
    {text : List Byte} {k : Nat} (hk : c * k ≤ text.length) (n : Nat) :
    fieldAt (enc text) (w * k) n = fieldAt (enc (text.drop (c * k))) 0 n := by
  induction k generalizing text with
  | zero => rfl
  | succ k ih =>
    rw [Nat.mul_succ] at hk
    have hrest : c * k ≤ (text.drop c).length := by rw [List.length_drop]; omega
    rw [henc text (by omega), Nat.mul_succ, Nat.add_comm, fieldAt_bitsOf_append_right, ih hrest,
      List.drop_drop, Nat.mul_succ, Nat.add_comm c]

/-- The field of block `k`. -/
theorem fieldAt_block {enc : List Byte → List Bool} {val : List Byte → Nat} {c w : Nat}
    (henc : ∀ text, c ≤ text.length → enc text = bitsOf w (val text) ++ enc (text.drop c))
    {text : List Byte} {k : Nat} (hk : c * k + c ≤ text.length) :
    fieldAt (enc text) (w * k) w = val (text.drop (c * k)) % 2 ^ w := by
  have hblock : c ≤ (text.drop (c * k)).length := by rw [List.length_drop]; omega
  rw [fieldAt_after_blocks henc (by omega), henc _ hblock, fieldAt_bitsOf]

/-- The value of the triple a text begins with (30_encoding.md R64). -/
def tripleValue (text : List Byte) : Nat :=
  digitAt text 0 * 100 + digitAt text 1 * 10 + digitAt text 2

/-- The value of the symbol pair a text begins with (30_encoding.md R66). -/
def pairValue (text : List Byte) : Nat :=
  alnumAt text 0 * 45 + alnumAt text 1

theorem numericBits_of_triple (text : List Byte) (h : 3 ≤ text.length) :
    numericBits text = bitsOf 10 (tripleValue text) ++ numericBits (text.drop 3) := by
  match text, h with
  | _ :: _ :: _ :: _, _ => rfl

theorem numericBits_of_length_one {text : List Byte} (h : text.length = 1) :
    numericBits text = bitsOf 4 (digitAt text 0) := by
  obtain ⟨d0, rfl⟩ := List.length_eq_one_iff.1 h
  rfl

theorem numericBits_of_length_two {text : List Byte} (h : text.length = 2) :
    numericBits text = bitsOf 7 (digitAt text 0 * 10 + digitAt text 1) := by
  obtain ⟨d0, d1, rfl⟩ := List.length_eq_two.1 h
  rfl

theorem alnumBits_of_pair (text : List Byte) (h : 2 ≤ text.length) :
    alnumBits text = bitsOf 11 (pairValue text) ++ alnumBits (text.drop 2) := by
  match text, h with
  | b0 :: b1 :: rest, _ =>
    rw [alnumBits, alnumValue_eq, alnumValue_eq]
    rfl

theorem alnumBits_of_length_one {text : List Byte} (h : text.length = 1) :
    alnumBits text = bitsOf 6 (alnumAt text 0) := by
  obtain ⟨b0, rfl⟩ := List.length_eq_one_iff.1 h
  rw [alnumBits, alnumValue_eq]
  rfl

theorem byteBits_of_byte (text : List Byte) (h : 1 ≤ text.length) :
    byteBits text = bitsOf 8 (text.getD 0 0).toNat ++ byteBits (text.drop 1) := by
  match text, h with
  | _ :: _, _ => rfl

section Numeric

variable {text : List Byte} (hdigits : ∀ b ∈ text, IsDigitByte b)
include hdigits

theorem fieldAt_numericBits_triple {k : Nat} (hk : k < text.length / 3) :
    fieldAt (numericBits text) (10 * k) 10 =
      digitAt text (3 * k) * 100 + digitAt text (3 * k + 1) * 10 + digitAt text (3 * k + 2) := by
  have h0 := digitAt_le_nine hdigits (3 * k)
  have h1 := digitAt_le_nine hdigits (3 * k + 1)
  have h2 := digitAt_le_nine hdigits (3 * k + 2)
  rw [fieldAt_block numericBits_of_triple (by omega), tripleValue, digitAt_drop, digitAt_drop,
    digitAt_drop, Nat.add_zero]
  exact Nat.mod_eq_of_lt (by omega)

theorem fieldAt_numericBits_last_digit (h : text.length % 3 = 1) :
    fieldAt (numericBits text) (10 * (text.length / 3)) 4 = digitAt text (text.length - 1) := by
  have hlast : (text.drop (3 * (text.length / 3))).length = 1 := by rw [List.length_drop]; omega
  have h0 := digitAt_le_nine hdigits (text.length - 1)
  rw [fieldAt_after_blocks numericBits_of_triple (by omega), numericBits_of_length_one hlast,
    fieldAt_bitsOf_end, digitAt_drop,
    show 3 * (text.length / 3) + 0 = text.length - 1 by omega]
  exact Nat.mod_eq_of_lt (by omega)

theorem fieldAt_numericBits_last_pair (h : text.length % 3 = 2) :
    fieldAt (numericBits text) (10 * (text.length / 3)) 7 =
      digitAt text (text.length - 2) * 10 + digitAt text (text.length - 1) := by
  have hlast : (text.drop (3 * (text.length / 3))).length = 2 := by rw [List.length_drop]; omega
  have h0 := digitAt_le_nine hdigits (text.length - 2)
  have h1 := digitAt_le_nine hdigits (text.length - 1)
  rw [fieldAt_after_blocks numericBits_of_triple (by omega), numericBits_of_length_two hlast,
    fieldAt_bitsOf_end, digitAt_drop, digitAt_drop,
    show 3 * (text.length / 3) + 0 = text.length - 2 by omega,
    show 3 * (text.length / 3) + 1 = text.length - 1 by omega]
  exact Nat.mod_eq_of_lt (by omega)

end Numeric

theorem fieldAt_alnumBits_pair {text : List Byte} {k : Nat} (hk : k < text.length / 2) :
    fieldAt (alnumBits text) (11 * k) 11 =
      alnumAt text (2 * k) * 45 + alnumAt text (2 * k + 1) := by
  have h0 := alnumAt_lt text (2 * k)
  have h1 := alnumAt_lt text (2 * k + 1)
  rw [fieldAt_block alnumBits_of_pair (by omega), pairValue, alnumAt_drop, alnumAt_drop,
    Nat.add_zero]
  exact Nat.mod_eq_of_lt (by omega)

theorem fieldAt_alnumBits_last_symbol {text : List Byte} (h : text.length % 2 = 1) :
    fieldAt (alnumBits text) (11 * (text.length / 2)) 6 = alnumAt text (text.length - 1) := by
  have hlast : (text.drop (2 * (text.length / 2))).length = 1 := by rw [List.length_drop]; omega
  have h0 := alnumAt_lt text (text.length - 1)
  rw [fieldAt_after_blocks alnumBits_of_pair (by omega), alnumBits_of_length_one hlast,
    fieldAt_bitsOf_end, alnumAt_drop,
    show 2 * (text.length / 2) + 0 = text.length - 1 by omega]
  exact Nat.mod_eq_of_lt (by omega)

theorem fieldAt_byteBits {text : List Byte} {k : Nat} (hk : k < text.length) :
    fieldAt (byteBits text) (8 * k) 8 = (text.getD k 0).toNat := by
  rw [fieldAt_block (val := fun t => (t.getD 0 0).toNat) byteBits_of_byte (by omega), Nat.one_mul,
    Nat.mod_eq_of_lt (BitVec.isLt _)]
  simp [List.getD_eq_getElem?_getD]

theorem fieldAt_headerBits_indicator (band : Band) (m : Mode) (text : List Byte) :
    fieldAt (headerBits band m text) 0 4 = (modeNumbers m).indicator.toNat := by
  rw [headerBits, fieldAt_bitsOf, Nat.mod_eq_of_lt (BitVec.isLt _), ← modeField_eq]
  rfl

theorem fieldAt_headerBits_count (band : Band) (m : Mode) (text : List Byte) :
    fieldAt (headerBits band m text) 4 (countWidth band m) =
      countOf m text % 2 ^ countWidth band m := by
  rw [headerBits, fieldAt_bitsOf_append_right 4 _ _ 0, fieldAt_bitsOf_end, charCount_eq,
    Nat.mod_mod]

end Sys2Proof.Machine
end

section
/-! PROOFS. What HDR, DNUM, DALNUM and DBYTE answer in each case of their checks
(42_segment_encoders.md R132, R135, R137, R139). -/

namespace Sys2Proof.Machine

theorem exec_hdr_of_illegal_version (mode : Mode) {ver : BitVec 6} (s : State)
    (hver : ¬ LegalVersion ver) : exec (.hdr mode ver) s = .next (faulted s 2) := by
  obtain ⟨-, he⟩ | ⟨hc, -⟩ | ⟨hc, -⟩ | ⟨hc, -⟩ := execHdr_cases mode ver s
  · exact he
  all_goals exact absurd hc hver

theorem exec_hdr_of_textFault {mode : Mode} {ver : BitVec 6} {s : State} {c : FaultCode}
    (hver : LegalVersion ver) (ha : s.accActive = true) (htext : textFault mode s.text = some c) :
    exec (.hdr mode ver) s = .next (faulted s c.code) := by
  obtain ⟨hc, -⟩ | ⟨-, hc, -⟩ | ⟨-, -, d, hd, he⟩ | ⟨-, -, hc, -⟩ := execHdr_cases mode ver s
  · exact absurd hver hc
  · simp [ha] at hc
  · cases hd.symm.trans htext
    exact he
  · simp [htext] at hc

theorem exec_hdr_of_countable {mode : Mode} {ver : BitVec 6} {s : State}
    (hver : LegalVersion ver) (ha : s.accActive = true) (htext : textFault mode s.text = none) :
    ∃ band, countWidth band mode = countWidthOf ver.toNat mode ∧
      exec (.hdr mode ver) s = .next (s.append (headerBits band mode s.text)).respondOk := by
  obtain ⟨hc, -⟩ | ⟨-, hc, -⟩ | ⟨-, -, c, hc, -⟩ | ⟨-, -, -, band, -, hw, he⟩ :=
    execHdr_cases mode ver s
  · exact absurd hver hc
  · simp [ha] at hc
  · simp [htext] at hc
  · exact ⟨band, hw mode, he⟩

theorem exec_dnum_of_nonDigit {s : State} (ha : s.accActive = true)
    (htext : ∃ b ∈ s.text, ¬ IsDigitByte b) : exec .dnum s = .next (faulted s 6) := by
  obtain ⟨hc, -⟩ | ⟨-, -, he⟩ | ⟨-, hdigits, -⟩ := execDnum_cases s
  · simp [ha] at hc
  · exact he
  · obtain ⟨b, hb, hnot⟩ := htext
    exact absurd (hdigits b hb) hnot

theorem exec_dnum_of_digits {s : State} (ha : s.accActive = true)
    (htext : ∀ b ∈ s.text, IsDigitByte b) :
    exec .dnum s = .next (s.append (numericBits s.text)).respondOk := by
  obtain ⟨hc, -⟩ | ⟨-, ⟨b, hb, hnot⟩, -⟩ | ⟨-, -, he⟩ := execDnum_cases s
  · simp [ha] at hc
  · exact absurd (htext b hb) hnot
  · exact he

theorem exec_dalnum_of_live {s : State} (ha : s.accActive = true) :
    exec .dalnum s = .next (s.append (alnumBits s.text)).respondOk := by
  obtain ⟨hc, -⟩ | ⟨-, he⟩ := execDalnum_cases s
  · simp [ha] at hc
  · exact he

theorem exec_dbyte_of_live {s : State} (ha : s.accActive = true) :
    exec .dbyte s = .next (s.append (byteBits s.text)).respondOk := by
  obtain ⟨hc, -⟩ | ⟨-, he⟩ := execDbyte_cases s
  · simp [ha] at hc
  · exact he

/-- `appends_respondOk` with the number of appended bits named. -/
theorem appends_of_length {s : State} {bits : List Bool} {n : Nat} (ha : s.accActive = true)
    (hlen : bits.length = n) : Appends s (s.append bits).respondOk n :=
  hlen ▸ appends_respondOk bits ha

/-- A field past the earlier bits is a field of the appended ones. -/
theorem fieldAt_appended (s : State) (bits : List Bool) (off w : Nat) :
    fieldAt (s.append bits).respondOk.accS (s.accS.length + off) w = fieldAt bits off w :=
  fieldAt_append_right s.accS bits off w

end Sys2Proof.Machine
end

section
/-! PROOFS. The statements about the header and the segment encoders (42_segment_encoders.md). -/

namespace Sys2Proof.Machine

/-- Settles O29: the checks in R188's order, then the two fields of the header. -/
theorem hdrInjectsTheIndicatorAndTheTruncatedCount :
    Obligations.HdrInjectsTheIndicatorAndTheTruncatedCount := by
  intro mode ver s
  refine ⟨?_, exec_hdr_of_illegal_version mode s, execHdr_of_consumed mode, ?_, ?_, ?_⟩
  · rw [← modeField_eq]
    exact decode_hdrWord mode ver
  · rintro hver ha rfl htext
    exact exec_hdr_of_textFault hver ha (textFault_numeric_eq htext)
  · intro hver ha hmode htext
    exact exec_hdr_of_textFault hver ha (textFault_eq_notUtf8 hmode htext)
  · intro hver ha hdigits hutf8
    obtain ⟨band, hw, he⟩ :=
      exec_hdr_of_countable hver ha ((textFault_eq_none_iff _ _).2 ⟨hdigits, hutf8⟩)
    rw [← hw]
    refine ⟨_, he, appends_of_length ha (length_headerBits band mode s.text), ?_, ?_⟩
    · exact (fieldAt_appended s _ 0 4).trans (fieldAt_headerBits_indicator band mode s.text)
    · exact (fieldAt_appended s _ 4 _).trans (fieldAt_headerBits_count band mode s.text)

/-- Settles O30: the two checks, then the triples and the remainder read back from the bits. -/
theorem dnumAppendsDigitTriplesAndRemainder : Obligations.DnumAppendsDigitTriplesAndRemainder := by
  intro s
  refine ⟨decode_dnumWord, exec_of_consumed_of_no_version rfl rfl, exec_dnum_of_nonDigit,
    fun ha hdigits => ⟨_, exec_dnum_of_digits ha hdigits,
      appends_of_length ha (length_numericBits s.text), ?_, ?_, ?_⟩⟩
  · intro k hk
    rw [fieldAt_appended, fieldAt_numericBits_triple hdigits hk]
  · intro h
    rw [fieldAt_appended, fieldAt_numericBits_last_digit hdigits h]
  · intro h
    rw [fieldAt_appended, fieldAt_numericBits_last_pair hdigits h]

/-- Settles O31: the one check, then the pairs and the last symbol read back from the bits. -/
theorem dalnumAppendsSymbolPairsAndRemainder :
    Obligations.DalnumAppendsSymbolPairsAndRemainder := by
  intro s
  refine ⟨decode_dalnumWord, exec_of_consumed_of_no_version rfl rfl,
    fun ha => ⟨_, exec_dalnum_of_live ha, appends_of_length ha (length_alnumBits s.text), ?_, ?_⟩⟩
  · intro k hk
    rw [fieldAt_appended, fieldAt_alnumBits_pair hk]
  · intro h
    rw [fieldAt_appended, fieldAt_alnumBits_last_symbol h]

/-- Settles O32: the one check, then each byte read back from the bits. -/
theorem dbyteAppendsEveryByteVerbatim : Obligations.DbyteAppendsEveryByteVerbatim := by
  intro s
  refine ⟨decode_dbyteWord, exec_of_consumed_of_no_version rfl rfl,
    fun ha => ⟨_, exec_dbyte_of_live ha, appends_of_length ha (length_byteBits s.text), ?_⟩⟩
  intro k hk
  rw [fieldAt_appended, fieldAt_byteBits hk]

end Sys2Proof.Machine
end

section
/-! PROOFS. The words of FINISH and ENCODE, written out as R80 gives them, decode to their commands
(30_encoding.md R79). -/

namespace Sys2Proof

theorem decode_of_finish {w : Word} (h : field w 31 28 = 0xA) :
    decode w = whenZero w 27 16 (.command (.finish (BitVec.ofNat 16 (field w 15 0)))) := by
  simp only [decode, h]

theorem decode_finishWord (required : BitVec 16) :
    decode (0xA0000000#32 ||| required.setWidth 32) = .command (.finish required) := by
  have hlow : required.toNat < 2 ^ 28 := required.isLt.trans (by decide)
  have hword : 0xA0000000#32 ||| required.setWidth 32 = opWord 0xA required.toNat :=
    opWord_eq_or 0xA required (by decide) (by decide)
  have hval : field (opWord 0xA required.toNat) 15 0 = required.toNat := by
    rw [field_opWord_low (by decide) hlow (by decide) (by decide)]; omega
  rw [hword, decode_of_finish (field_opWord_op (by decide) hlow),
    whenZero_of_eq _ (field_opWord_above (by decide) required.isLt (by decide)), hval,
    BitVec.ofNat_toNat, BitVec.setWidth_eq]

theorem ecOfCode_ecCode (ec : ECLevel) : ecOfCode (ecCode ec).toNat = ec := by
  cases ec <;> rfl

theorem decode_of_encode {w : Word} (h : field w 31 28 = 0xB) :
    decode w = whenZero w 27 10 (whenZero w 7 6
      (.command (.encode (BitVec.ofNat 6 (field w 5 0)) (ecOfCode (field w 9 8))))) := by
  simp only [decode, h]

/-- The fields of a word with a 2-bit code at bit 8 and a version at bit 0 (R71). -/
theorem field_opWord_code_version {op : Nat} (ho : op < 16) (code : BitVec 2) (ver : BitVec 6) :
    field (opWord op (code.toNat * 2 ^ 8 + ver.toNat)) 31 28 = op ∧
      field (opWord op (code.toNat * 2 ^ 8 + ver.toNat)) 27 10 = 0 ∧
      field (opWord op (code.toNat * 2 ^ 8 + ver.toNat)) 9 8 = code.toNat ∧
      field (opWord op (code.toNat * 2 ^ 8 + ver.toNat)) 7 6 = 0 ∧
      field (opWord op (code.toNat * 2 ^ 8 + ver.toNat)) 5 0 = ver.toNat := by
  have hcode := code.isLt
  have hver := ver.isLt
  have hlow : code.toNat * 2 ^ 8 + ver.toNat < 2 ^ 10 := by omega
  have hlow28 : code.toNat * 2 ^ 8 + ver.toNat < 2 ^ 28 := hlow.trans (by decide)
  refine ⟨field_opWord_op ho hlow28, field_opWord_above ho hlow (by decide), ?_, ?_, ?_⟩ <;>
    · rw [field_opWord_low ho hlow28 (by decide) (by decide)]
      omega

theorem decode_encodeWord (ver : BitVec 6) (ec : ECLevel) :
    decode (0xB0000000#32 ||| (ecCode ec).setWidth 32 <<< 8 ||| ver.setWidth 32) =
      .command (.encode ver ec) := by
  have hcode := (ecCode ec).isLt
  have hword : 0xB0000000#32 ||| (ecCode ec).setWidth 32 <<< 8 ||| ver.setWidth 32 =
      opWord 0xB ((ecCode ec).toNat * 2 ^ 8 + ver.toNat) := by
    rw [setWidth_eq_ofNat (ecCode ec)]
    exact opWord_eq_or_or 0xB (ecCode ec).toNat ver (by decide) (by decide) (by omega)
  obtain ⟨hop, habove, hec, hgap, hval⟩ :=
    field_opWord_code_version (op := 0xB) (by decide) (ecCode ec) ver
  rw [hword, decode_of_encode hop, whenZero_of_eq _ habove, whenZero_of_eq _ hgap, hec, hval,
    ecOfCode_ecCode, BitVec.ofNat_toNat, BitVec.setWidth_eq]

end Sys2Proof
end

section
/-! PROOFS. What the terminator and padding filler puts after the content
(43_finish_and_encode.md R161 to R164). -/

namespace Sys2Proof.Machine

theorem getElem?_padBytes {n k : Nat} (h : k < n) :
    (padBytes n)[k]? = some (if k % 2 = 0 then 0xEC else 0x11) := by
  simp [padBytes, padByte, h]

/-- The content, then as many zero bytes as the statements count (R162, R163). -/
theorem withTerminator_bytesOf (bits : List Bool) (r : Nat) :
    withTerminator (bytesOf bits) (shiftOf bits) r =
      bytesOf bits ++ List.replicate (terminatorBytes bits.length r) 0x00 := by
  rw [withTerminator, length_bytesOf, terminatorBytes, byteLen, shiftOf, freeBits, freeAfter]
  split_ifs <;> simp

/-- The finished bytes: the content, the terminator, and pads for the rest (R161 to R164). -/
def finishedBytes (bits : List Bool) (r : Nat) : List Byte :=
  bytesOf bits ++ (List.replicate (terminatorBytes bits.length r) 0x00 ++
    padBytes (r - (byteLen bits + terminatorBytes bits.length r)))

theorem finishResult_of_fits {bits : List Bool} {r : Nat} (h : byteLen bits ≤ r) :
    finishResult (bytesOf bits) (shiftOf bits) r = some (finishedBytes bits r) := by
  rw [finishResult, length_bytesOf, if_neg (by omega), withTerminator_bytesOf, finishedBytes]
  simp

theorem finishResult_of_overflow {bits : List Bool} {r : Nat} (h : r < byteLen bits) :
    finishResult (bytesOf bits) (shiftOf bits) r = none := by
  rwa [finishResult_eq_none_iff, length_bytesOf]

theorem take_finishedBytes (bits : List Bool) (r : Nat) :
    (finishedBytes bits r).take (byteLen bits) = bytesOf bits :=
  List.take_left' (length_bytesOf bits)

theorem length_finishedBytes {bits : List Bool} {r : Nat} (h : byteLen bits ≤ r) :
    (finishedBytes bits r).length = r :=
  (finishResult_some (finishResult_of_fits h)).1

theorem getElem?_finishedBytes_terminator {bits : List Bool} {r : Nat}
    (h : terminatorBytes bits.length r = 1) :
    (finishedBytes bits r)[byteLen bits]? = some 0x00 := by
  rw [finishedBytes, h, ← length_bytesOf, List.getElem?_append_right le_rfl, Nat.sub_self]
  rfl

theorem getElem?_finishedBytes_pad {bits : List Bool} {r k : Nat}
    (h : byteLen bits + terminatorBytes bits.length r + k < r) :
    (finishedBytes bits r)[byteLen bits + terminatorBytes bits.length r + k]? =
      some (if k % 2 = 0 then 0xEC else 0x11) := by
  rw [finishedBytes, Nat.add_assoc, ← length_bytesOf, List.getElem?_append_right (by omega),
    Nat.add_sub_cancel_left, List.getElem?_append_right (by simp), List.length_replicate,
    Nat.add_sub_cancel_left, getElem?_padBytes (by rw [length_bytesOf]; omega)]

theorem answerFinish_of_none {s : State} {r : Nat} (mode : Option ModeField)
    (h : finishResult (bytesOf s.accS) (shiftOf s.accS) r = none) :
    s.answerFinish r mode = s.respond .capacityExceeded none none none := by
  rw [State.answerFinish, h]

theorem answerFinish_of_some {s : State} {r : Nat} {b : List Byte} (mode : Option ModeField)
    (h : finishResult (bytesOf s.accS) (shiftOf s.accS) r = some b) :
    s.answerFinish r mode = s.respond .ok mode (some b) none := by
  rw [State.answerFinish, h]

end Sys2Proof.Machine
end

section
/-! PROOFS. What FINISH and ENCODE answer in each case of their checks, and the segment ENCODE
leaves (43_finish_and_encode.md R160, R166). -/

namespace Sys2Proof.Machine

theorem exec_finish_of_live {required : BitVec 16} {s : State} (ha : s.accActive = true) :
    exec (.finish required) s = .next (s.consume.answerFinish required.toNat none) := by
  obtain ⟨hc, -⟩ | ⟨-, he⟩ := execFinish_cases required s
  · simp [ha] at hc
  · exact he

theorem exec_finish_of_overflow {required : BitVec 16} {s : State} (ha : s.accActive = true)
    (h : required.toNat < byteLen s.accS) :
    exec (.finish required) s = .next (s.consume.respond .capacityExceeded none none none) := by
  rw [exec_finish_of_live ha,
    answerFinish_of_none (s := s.consume) none (finishResult_of_overflow h)]

theorem exec_finish_of_fits {required : BitVec 16} {s : State} (ha : s.accActive = true)
    (h : byteLen s.accS ≤ required.toNat) :
    exec (.finish required) s = .next
      (s.consume.respond .ok none (some (finishedBytes s.accS required.toNat)) none) := by
  rw [exec_finish_of_live ha,
    answerFinish_of_some (s := s.consume) none (finishResult_of_fits h), State.consume_accS]

/-- The segment of a text in a mode: the header, then the data bits (R166). -/
def segment (band : Band) (m : Mode) (text : List Byte) : List Bool :=
  headerBits band m text ++ dataBits m text

theorem length_segment {band : Band} {m : Mode} {ver : Nat} (text : List Byte)
    (hw : countWidth band m = countWidthOf ver m) :
    (segment band m text).length = segBits m ver text := by
  rw [segment, List.length_append, length_headerBits, length_dataBits, hw, segBits]

theorem fieldAt_segment_indicator (band : Band) (m : Mode) (text : List Byte) :
    fieldAt (segment band m text) 0 4 = (modeNumbers m).indicator.toNat := by
  rw [segment, fieldAt_append_left (by rw [length_headerBits]; omega),
    fieldAt_headerBits_indicator]

theorem fieldAt_segment_count (band : Band) (m : Mode) (text : List Byte) :
    fieldAt (segment band m text) 4 (countWidth band m) =
      countOf m text % 2 ^ countWidth band m := by
  rw [segment, fieldAt_append_left (by rw [length_headerBits]), fieldAt_headerBits_count]

theorem drop_segment (band : Band) (m : Mode) (text : List Byte) :
    (segment band m text).drop (4 + countWidth band m) = dataBits m text :=
  List.drop_left' (length_headerBits band m text)

theorem exec_encode_of_illegal_version {ver : BitVec 6} (ec : ECLevel) (s : State)
    (hver : ¬ LegalVersion ver) : exec (.encode ver ec) s = .next (faulted s 2) := by
  obtain ⟨-, he⟩ | ⟨hc, -⟩ | ⟨hc, -⟩ := execEncode_cases ver ec s
  · exact he
  all_goals exact absurd hc hver

theorem exec_encode_of_notUtf8 {ver : BitVec 6} (ec : ECLevel) {s : State}
    (hver : LegalVersion ver) (htext : validUtf8 s.text = false) :
    exec (.encode ver ec) s = .next (faulted s 4) := by
  obtain ⟨hc, -⟩ | ⟨-, -, he⟩ | ⟨-, hc, -⟩ := execEncode_cases ver ec s
  · exact absurd hver hc
  · exact he
  · simp [htext] at hc

/-- A legal ENCODE is FINISH's answer on the consumed segment of the selected mode. -/
theorem exec_encode_of_utf8 {ver : BitVec 6} (ec : ECLevel) {s : State}
    (hver : LegalVersion ver) (htext : validUtf8 s.text = true) :
    ∃ band, (∀ m, countWidth band m = countWidthOf ver.toNat m) ∧
      exec (.encode ver ec) s = .next
        (State.answerFinish
          { s with accS := segment band (modeOf s.text) s.text, accActive := false }
          (capacity ver.toNat ec) (some (modeNumbers (modeOf s.text)))) := by
  obtain ⟨hc, -⟩ | ⟨-, hc, -⟩ | ⟨-, -, band, -, hw, he⟩ := execEncode_cases ver ec s
  · exact absurd hver hc
  · simp [htext] at hc
  · rw [modeField_eq] at he
    exact ⟨band, hw, he⟩

end Sys2Proof.Machine
end

section
/-! PROOFS. The statements about FINISH and ENCODE (43_finish_and_encode.md). -/

namespace Sys2Proof.Machine

/-- Settles O37: the one check, then overflow or the content, the terminator and the pads, each read
from `finishedBytes`. -/
theorem finishTerminatesAndPadsOrOverflows : Obligations.FinishTerminatesAndPadsOrOverflows := by
  intro required s
  exact ⟨decode_finishWord required, exec_of_consumed_of_no_version rfl rfl,
    exec_finish_of_overflow, fun ha hfits => ⟨finishedBytes s.accS required.toNat,
      exec_finish_of_fits ha hfits, length_finishedBytes hfits, take_finishedBytes _ _,
      getElem?_finishedBytes_terminator, fun _ => getElem?_finishedBytes_pad⟩⟩

/-- Settles O39: the two checks, then the segment's fields and FINISH's two answers on it. -/
theorem encodeLeavesTheSegmentAndAnswersItsCodewords :
    Obligations.EncodeLeavesTheSegmentAndAnswersItsCodewords := by
  intro ver ec s
  refine ⟨decode_encodeWord ver ec, exec_encode_of_illegal_version ec s,
    exec_encode_of_notUtf8 ec, fun hver htext => ?_⟩
  obtain ⟨band, hw, he⟩ := exec_encode_of_utf8 ec hver htext
  refine ⟨segment band (modeOf s.text) s.text, _, _, rfl, rfl, length_segment s.text (hw _),
    fieldAt_segment_indicator _ _ _, ?_, ?_, ?_, ?_⟩
  · rw [← hw]
    exact fieldAt_segment_count _ _ _
  · rw [← hw]
    exact drop_segment _ _ _
  · intro hnone
    rw [he, answerFinish_of_none]
    · rfl
    · exact hnone
  · intro b hsome
    refine ⟨(finishResult_some hsome).1, ?_⟩
    rw [he, answerFinish_of_some]
    · rfl
    · exact hsome

end Sys2Proof.Machine
end

section
/-! PROOFS. Which words the decoder rejects (60_exceptions.md R182; 30_encoding.md R76, R77): a
reserved opcode, a field the format marks `0`, or the reserved mode code. -/

namespace Sys2Proof

open Machine (markedZero)

/-- A field is 0 exactly when each of its bits is 0. -/
theorem field_eq_zero_iff (w : Word) (hi lo : Nat) :
    field w hi lo = 0 ↔ ∀ k, lo ≤ k ∧ k ≤ hi → w.getLsbD k = false := by
  have hbit : ∀ j, (field w hi lo).testBit j = (decide (j < hi + 1 - lo) && w.getLsbD (j + lo)) :=
    fun j => by rw [field, Nat.testBit_mod_two_pow, Nat.testBit_div_two_pow, BitVec.getLsbD]
  constructor
  · intro h k ⟨hlo, hhi⟩
    have hk := hbit (k - lo)
    rw [h, Nat.zero_testBit, Nat.sub_add_cancel hlo, decide_eq_true (by omega), Bool.true_and] at hk
    exact hk.symm
  · intro h
    apply Nat.eq_of_testBit_eq
    intro j
    rw [hbit, Nat.zero_testBit]
    by_cases hj : j < hi + 1 - lo
    · rw [h (j + lo) (by omega), Bool.and_false]
    · rw [decide_eq_false hj, Bool.false_and]

/-- The mask whose ones stand at `hi:lo` tests the field `W[hi:lo]`. -/
theorem and_mask_eq_zero_iff {m : Word} {hi lo : Nat} (w : Word)
    (hm : ∀ k < 32, m.getLsbD k = decide (lo ≤ k ∧ k ≤ hi)) :
    w &&& m = 0 ↔ field w hi lo = 0 := by
  rw [field_eq_zero_iff, BitVec.ofNat_eq_ofNat]
  constructor
  · intro h k hk
    by_cases hlt : k < 32
    · simpa [hm k hlt, hk] using congrArg (BitVec.getLsbD · k) h
    · exact BitVec.getLsbD_of_ge w k (by omega)
  · intro h
    apply BitVec.eq_of_getLsbD_eq
    intro k hlt
    rw [BitVec.getLsbD_and, hm k hlt, BitVec.getLsbD_zero]
    by_cases hk : lo ≤ k ∧ k ≤ hi
    · rw [h k hk, Bool.false_and]
    · rw [decide_eq_false hk, Bool.and_false]

/-- The mask of HDR and ENCODE has two runs of ones (R71). -/
theorem and_twoFieldMask_eq_zero_iff (w : Word) :
    w &&& 0x0FFFFCC0 = 0 ↔ field w 27 10 = 0 ∧ field w 7 6 = 0 := by
  rw [show (0x0FFFFCC0 : Word) = 0x0FFFFC00 ||| 0xC0 by decide, BitVec.and_or_distrib_left]
  exact BitVec.or_eq_zero_iff.trans
    (and_congr (and_mask_eq_zero_iff w (by decide)) (and_mask_eq_zero_iff w (by decide)))

theorem whenZero_illegal_iff {w : Word} {hi lo : Nat} {d : Decoded} :
    (∃ why, whenZero w hi lo d = .illegal why) ↔
      field w hi lo ≠ 0 ∨ ∃ why, d = .illegal why := by
  unfold whenZero
  split_ifs with h <;> simp [h]

/-- A format with one field marked `0` is illegal exactly when a bit under its mask is 1 (R77). -/
theorem whenZero_command_illegal_iff {w m : Word} {hi lo : Nat} (i : Instr)
    (hm : ∀ k < 32, m.getLsbD k = decide (lo ≤ k ∧ k ≤ hi)) :
    (∃ why, whenZero w hi lo (.command i) = .illegal why) ↔ w &&& m ≠ 0 := by
  rw [whenZero_illegal_iff, Ne, Ne, and_mask_eq_zero_iff w hm]
  simp

theorem field_opcode (w : Word) : field w 31 28 = w.toNat / 2 ^ 28 := by
  have := w.isLt
  rw [field]; omega

theorem decode_of_reservedOpcode {w : Word} (h : field w 31 28 = 0x0 ∨ 0xC ≤ field w 31 28) :
    decode w = .illegal .reservedOpcode := by
  unfold decode
  split
  case h_12 => rfl
  all_goals omega

/-- The mode code 0b11 is the one that names no mode (R72). -/
theorem modeOfCode_eq_none_iff (w : Word) :
    modeOfCode (field w 9 8) = none ↔ w.getLsbD 9 = true ∧ w.getLsbD 8 = true := by
  have hcode : field w 9 8 < 4 := Nat.mod_lt _ (by decide)
  have hnone : modeOfCode (field w 9 8) = none ↔ field w 9 8 = 3 := by
    generalize field w 9 8 = n at hcode
    interval_cases n <;> simp [modeOfCode]
  rw [hnone, BitVec.getLsbD, BitVec.getLsbD, Nat.testBit_eq_decide_div_mod_eq,
    Nat.testBit_eq_decide_div_mod_eq, decide_eq_true_iff, decide_eq_true_iff, field]
  omega

theorem decode_hdr_illegal_iff {w : Word} (h : field w 31 28 = 0x6) :
    (∃ why, decode w = .illegal why) ↔
      w &&& markedZero 0x6 ≠ 0 ∨ w.getLsbD 9 = true ∧ w.getLsbD 8 = true := by
  rw [← modeOfCode_eq_none_iff, markedZero, Ne, and_twoFieldMask_eq_zero_iff, not_and_or, or_assoc]
  simp only [decode, h, whenZero_illegal_iff]
  cases modeOfCode (field w 9 8) <;> simp

theorem decode_encode_illegal_iff {w : Word} (h : field w 31 28 = 0xB) :
    (∃ why, decode w = .illegal why) ↔ w &&& markedZero 0xB ≠ 0 := by
  rw [decode_of_encode h, markedZero, Ne, and_twoFieldMask_eq_zero_iff, not_and_or,
    whenZero_illegal_iff, whenZero_illegal_iff]
  simp

/-- An assigned opcode other than HDR's: the word is illegal exactly when a bit its format marks `0`
is 1. -/
theorem decode_assigned_illegal_iff {w : Word} {op : Nat} (h : field w 31 28 = op)
    (hlo : 0x1 ≤ op) (hhi : op ≤ 0xB) (hne : op ≠ 0x6) :
    (∃ why, decode w = .illegal why) ↔ w &&& markedZero op ≠ 0 := by
  obtain rfl | hsmall : op = 0xB ∨ op < 0xB := by omega
  · exact decode_encode_illegal_iff h
  · obtain rfl | rfl | rfl | rfl | rfl | rfl | rfl | rfl | rfl : op = 0x1 ∨ op = 0x2 ∨ op = 0x3 ∨
        op = 0x4 ∨ op = 0x5 ∨ op = 0x7 ∨ op = 0x8 ∨ op = 0x9 ∨ op = 0xA := by omega
    all_goals
      simp only [decode, h]
      exact whenZero_command_illegal_iff _ (by decide)

end Sys2Proof
end

section
/-! PROOFS. The faults in the order of R188 (60_exceptions.md R183 to R188): what a command does
when a fault applies and none before it does, and what it keeps when none applies. -/

namespace Sys2Proof.Machine

/-- The applicable fault with the lowest code, the one R188 reports. -/
def LowestFault (c : FaultCode) (i : Instr) (s : State) : Prop :=
  FaultApplies c i s ∧ ∀ d, FaultApplies d i s → c.code ≤ d.code

theorem lowestFault_or_none (i : Instr) (s : State) :
    (∃ c, LowestFault c i s) ∨ ∀ c, ¬ FaultApplies c i s := by
  by_cases h : ∃ c, FaultApplies c i s
  · obtain ⟨c, hc, hmin⟩ :=
      (measure fun c : FaultCode => c.code.toNat).wf.has_min {c | FaultApplies c i s} h
    exact .inl ⟨c, hc, fun d hd => Nat.le_of_not_lt (hmin d hd)⟩
  · exact .inr (not_exists.1 h)

theorem LowestFault.not_applies {c d : FaultCode} {i : Instr} {s : State} (h : LowestFault c i s)
    (hlt : d.code < c.code) : ¬ FaultApplies d i s :=
  fun hd => absurd (h.2 d hd) (BitVec.not_le.2 hlt)

variable {i : Instr} {s : State}

theorem legalVersion_of_not_versionRange (h : ¬ FaultApplies .versionRange i s) {ver : BitVec 6}
    (hver : versionOperand i = some ver) : LegalVersion ver := by
  by_contra hill
  refine h ⟨ver, hver, ?_⟩
  unfold LegalVersion at hill
  omega

theorem active_of_not_notActive (h : ¬ FaultApplies .notActive i s) (hneeds : needsActive i = true) :
    s.accActive = true :=
  (active_or s).resolve_left fun ha => h ⟨hneeds, ha⟩

theorem exec_of_versionRange (h : FaultApplies .versionRange i s) :
    exec i s = .next (faulted s 2) := by
  obtain ⟨ver, hver, hrange⟩ := h
  have hill : ¬ LegalVersion ver := by unfold LegalVersion; omega
  cases i with
  | hdr mode v => cases hver; exact exec_hdr_of_illegal_version mode s hill
  | encode v ec => cases hver; exact exec_encode_of_illegal_version ec s hill
  | new _ | push _ _ | pushb _ | parts | analyze | dnum | dalnum | dbyte | finish _ => cases hver

theorem exec_of_notActive (h : FaultApplies .notActive i s)
    (hver : ¬ FaultApplies .versionRange i s) : exec i s = .next (faulted s 3) :=
  exec_of_consumed h.1 h.2 fun _ => legalVersion_of_not_versionRange hver

theorem exec_of_textNotUtf8 (h : FaultApplies .textNotUtf8 i s)
    (hver : ¬ FaultApplies .versionRange i s) (hact : ¬ FaultApplies .notActive i s) :
    exec i s = .next (faulted s 4) := by
  obtain ⟨hneeds, htext⟩ := h
  cases i with
  | hdr mode ver =>
    have hmode : mode ≠ .numeric := by simpa [needsUtf8] using hneeds
    exact exec_hdr_of_textFault (legalVersion_of_not_versionRange hver rfl)
      (active_of_not_notActive hact rfl) (textFault_eq_notUtf8 hmode htext)
  | encode ver ec => exact exec_encode_of_notUtf8 ec (legalVersion_of_not_versionRange hver rfl) htext
  | new _ | push _ _ | pushb _ | parts | analyze | dnum | dalnum | dbyte | finish _ => cases hneeds

theorem exec_of_pushOperand (h : FaultApplies .pushOperand i s)
    (hact : ¬ FaultApplies .notActive i s) : exec i s = .next (faulted s 5) := by
  obtain ⟨value, width, rfl, hvalue⟩ := h
  exact exec_push_of_overflow (active_of_not_notActive hact rfl) hvalue

theorem exec_of_nonDigit (h : FaultApplies .nonDigit i s)
    (hver : ¬ FaultApplies .versionRange i s) (hact : ¬ FaultApplies .notActive i s) :
    exec i s = .next (faulted s 6) := by
  obtain ⟨hneeds, htext⟩ := h
  cases i with
  | hdr mode ver =>
    obtain rfl : mode = .numeric := by simpa [needsDigits] using hneeds
    exact exec_hdr_of_textFault (legalVersion_of_not_versionRange hver rfl)
      (active_of_not_notActive hact rfl) (textFault_numeric_eq htext)
  | dnum => exact exec_dnum_of_nonDigit (active_of_not_notActive hact rfl) htext
  | new _ | push _ _ | pushb _ | parts | analyze | dalnum | dbyte | finish _ | encode _ _ =>
    cases hneeds

/-- R188: the command enters the applicable fault of lowest code. -/
theorem exec_of_lowestFault {c : FaultCode} (h : LowestFault c i s) :
    exec i s = .next (faulted s c.code) := by
  cases c with
  | illegalCommand => exact h.1.elim
  | versionRange => exact exec_of_versionRange h.1
  | notActive => exact exec_of_notActive h.1 (h.not_applies (by decide))
  | textNotUtf8 =>
    exact exec_of_textNotUtf8 h.1 (h.not_applies (by decide)) (h.not_applies (by decide))
  | pushOperand => exact exec_of_pushOperand h.1 (h.not_applies (by decide))
  | nonDigit => exact exec_of_nonDigit h.1 (h.not_applies (by decide)) (h.not_applies (by decide))

/-- HDR's text check passes when neither of its two text faults applies. -/
theorem textFault_eq_none_of_not_applies {mode : Mode} {ver : BitVec 6}
    (hutf8 : ¬ FaultApplies .textNotUtf8 (.hdr mode ver) s)
    (hdigits : ¬ FaultApplies .nonDigit (.hdr mode ver) s) : textFault mode s.text = none := by
  rw [textFault_eq_none_iff]
  constructor
  · rintro rfl b hb
    by_contra hnot
    exact hdigits ⟨rfl, b, hb, hnot⟩
  · intro hmode
    by_contra hinvalid
    exact hutf8 ⟨by simpa [needsUtf8] using hmode, by simpa using hinvalid⟩

/-- When no fault applies the command goes on and FAULT is kept. -/
theorem exec_of_no_fault (h : ∀ c, ¬ FaultApplies c i s) :
    ∃ t, exec i s = .next t ∧ t.fault = s.fault := by
  have hlegal := fun {ver} => legalVersion_of_not_versionRange (h .versionRange) (ver := ver)
  have hlive := active_of_not_notActive (h .notActive)
  cases i with
  | new hint => exact ⟨_, rfl, rfl⟩
  | push value width =>
    have hfits : value.toNat < 2 ^ width :=
      Nat.lt_of_not_le fun hover => h .pushOperand ⟨value, width, rfl, hover⟩
    exact ⟨_, exec_push_of_fits (hlive rfl) hfits, rfl⟩
  | pushb value => exact ⟨_, exec_pushb_of_live value (hlive rfl), rfl⟩
  | parts => exact ⟨_, exec_parts_of_live (hlive rfl), rfl⟩
  | analyze => exact ⟨_, rfl, rfl⟩
  | hdr mode ver =>
    obtain ⟨band, -, he⟩ := exec_hdr_of_countable (hlegal rfl) (hlive rfl)
      (textFault_eq_none_of_not_applies (h .textNotUtf8) (h .nonDigit))
    exact ⟨_, he, rfl⟩
  | dnum =>
    have hdigits : ∀ b ∈ s.text, IsDigitByte b := fun b hb =>
      by_contra fun hnot => h .nonDigit ⟨rfl, b, hb, hnot⟩
    exact ⟨_, exec_dnum_of_digits (hlive rfl) hdigits, rfl⟩
  | dalnum => exact ⟨_, exec_dalnum_of_live (hlive rfl), rfl⟩
  | dbyte => exact ⟨_, exec_dbyte_of_live (hlive rfl), rfl⟩
  | finish required => exact ⟨_, exec_finish_of_live (hlive rfl), State.answerFinish_fault _ _ _⟩
  | encode ver ec =>
    have hutf8 : validUtf8 s.text = true :=
      Bool.of_not_eq_false fun hinvalid => h .textNotUtf8 ⟨rfl, hinvalid⟩
    obtain ⟨band, -, he⟩ := exec_encode_of_utf8 ec (hlegal rfl) hutf8
    exact ⟨_, he, State.answerFinish_fault _ _ _⟩

theorem exec_goes_on (i : Instr) (s : State) : ∃ t, exec i s = .next t := by
  obtain ⟨c, hc⟩ | hnone := lowestFault_or_none i s
  · exact ⟨_, exec_of_lowestFault hc⟩
  · obtain ⟨t, ht, -⟩ := exec_of_no_fault hnone
    exact ⟨t, ht⟩

theorem exec_eq_faulted_of_fault {t : State} (hs : s.fault = 0) (ht : exec i s = .next t)
    (hfault : t.fault ≠ 0) : t = faulted s t.fault := by
  obtain ⟨c, hc⟩ | hnone := lowestFault_or_none i s
  · cases (exec_of_lowestFault hc).symm.trans ht
    rfl
  · obtain ⟨u, hu, hkept⟩ := exec_of_no_fault hnone
    cases hu.symm.trans ht
    exact absurd (hkept.trans hs) hfault

end Sys2Proof.Machine
end

section
/-! PROOFS. The statements about faults (60_exceptions.md R182 to R190). -/

namespace Sys2Proof.Machine

/-- Settles O3: reserved opcodes, HDR with its mode code, and the other assigned opcodes, each by
its own rule of R77. -/
theorem illegalWordsAreTheReservedOnesAndFault :
    Obligations.IllegalWordsAreTheReservedOnesAndFault := by
  intro w
  refine ⟨?_, fun s why => perform_of_illegal⟩
  rw [← field_opcode]
  by_cases hres : field w 31 28 = 0x0 ∨ 0xC ≤ field w 31 28
  · exact iff_of_true ⟨_, decode_of_reservedOpcode hres⟩ (.inl hres)
  · by_cases hhdr : field w 31 28 = 0x6
    · rw [decode_hdr_illegal_iff hhdr, hhdr]
      simp
    · rw [decode_assigned_illegal_iff rfl (by omega) (by omega) hhdr]
      simp [hres, hhdr]

/-- Settles O12: a recorded fault after the command is that of an illegal word or of a decoded
command, and both enter it by the same operation. -/
theorem faultEntryIsPrecise : Obligations.FaultEntryIsPrecise := by
  intro s t w hs ht hfault
  cases hd : decode w with
  | illegal why =>
    cases (perform_of_illegal hs hd).symm.trans ht
    rfl
  | command i =>
    rw [perform_of_command hs hd] at ht
    exact exec_eq_faulted_of_fault hs ht hfault

/-- Settles O13: the order of R188 is that of `perform`, and for a decoded command that of the
codes. -/
theorem lowestApplicableFaultIsReported : Obligations.LowestApplicableFaultIsReported := by
  intro s w
  by_cases hs : s.fault = 0
  · cases hd : decode w with
    | illegal why =>
      exact ⟨_, perform_of_illegal hs hd, fun hne => absurd hs hne, fun _ _ _ => rfl, nofun⟩
    | command i =>
      obtain ⟨t, ht⟩ := exec_goes_on i s
      refine ⟨t, (perform_of_command hs hd).trans ht, fun hne => absurd hs hne, nofun, ?_⟩
      rintro - _ ⟨⟩
      constructor
      · intro c hc hmin
        cases (exec_of_lowestFault ⟨hc, hmin⟩).symm.trans ht
        rfl
      · intro hnone
        obtain ⟨u, hu, hkept⟩ := exec_of_no_fault hnone
        cases hu.symm.trans ht
        exact hkept.trans hs
  · exact ⟨_, perform_of_fault hs, fun _ => rfl, fun h => absurd h hs, fun h => absurd h hs⟩

/-- Settles O6: the refusal stands before the decoder and changes the response port only. -/
theorem stickyFaultRefusesEveryWord : Obligations.StickyFaultRefusesEveryWord :=
  fun _ _ => perform_of_fault

end Sys2Proof.Machine
end

section
/-! PROOFS. The decoder and the encoder undo each other (30_encoding.md R79): the words of R80 are
`encode`'s, and a word is made of its opcode and the 28 bits below it. -/

namespace Sys2Proof

theorem encode_new (hint : BitVec 16) :
    encode (.new hint) = 0x10000000#32 ||| hint.setWidth 32 :=
  (opWord_eq_or 0x1 hint (by decide) (by decide)).symm

theorem encode_push (value : BitVec 16) {width : Nat} (h16 : width ≤ 16) :
    encode (.push value width) =
      0x20000000#32 ||| BitVec.ofNat 32 (width - 1) <<< 16 ||| value.setWidth 32 :=
  (opWord_eq_or_or 0x2 (width - 1) value (by decide) (by decide) (by omega)).symm

theorem encode_pushb (value : BitVec 8) :
    encode (.pushb value) = 0x30000000#32 ||| value.setWidth 32 :=
  (opWord_eq_or 0x3 value (by decide) (by decide)).symm

theorem encode_finish (required : BitVec 16) :
    encode (.finish required) = 0xA0000000#32 ||| required.setWidth 32 :=
  (opWord_eq_or 0xA required (by decide) (by decide)).symm

theorem encode_encode (ver : BitVec 6) (ec : ECLevel) :
    encode (.encode ver ec) =
      0xB0000000#32 ||| (ecCode ec).setWidth 32 <<< 8 ||| ver.setWidth 32 := by
  have hcode := (ecCode ec).isLt
  rw [setWidth_eq_ofNat (ecCode ec)]
  exact (opWord_eq_or_or 0xB (ecCode ec).toNat ver (by decide) (by decide) (by omega)).symm

/-- A PUSH term is spelled by a word exactly when its width is one of R74's. -/
theorem wellFormed_push_iff (value : BitVec 16) (width : Nat) :
    WellFormed (.push value width) = true ↔ 1 ≤ width ∧ width ≤ 16 := by
  simp [WellFormed]

theorem decode_analyzeWord : decode 0x50000000#32 = .command .analyze := by decide

theorem decode_encode {i : Instr} (h : WellFormed i = true) : decode (encode i) = .command i := by
  cases i with
  | new hint => rw [encode_new, decode_newWord]
  | push value width =>
    obtain ⟨h1, h16⟩ := (wellFormed_push_iff value width).1 h
    rw [encode_push value h16, decode_pushWord value h1 h16]
  | pushb value => rw [encode_pushb, decode_pushbWord]
  | parts => exact decode_partsWord
  | analyze => exact decode_analyzeWord
  | hdr mode ver => exact decode_opWord_hdr mode ver
  | dnum => exact decode_dnumWord
  | dalnum => exact decode_dalnumWord
  | dbyte => exact decode_dbyteWord
  | finish required => rw [encode_finish, decode_finishWord]
  | encode ver ec => rw [encode_encode, decode_encodeWord]

/-- A word is its opcode over the number its low 28 bits hold. -/
theorem opWord_of_fields {w : Word} {op low : Nat} (hop : field w 31 28 = op)
    (hlow : field w 27 0 = low) : opWord op low = w := by
  apply BitVec.eq_of_toNat_eq
  have hw := w.isLt
  rw [opWord, BitVec.toNat_ofNat]
  simp only [field] at hop hlow
  omega

theorem field_lt (w : Word) (hi lo : Nat) : field w hi lo < 2 ^ (hi + 1 - lo) :=
  Nat.mod_lt _ (by positivity)

/-- A field put into a term of its own width is read back whole. -/
theorem toNat_ofNat_field (w : Word) (hi : Nat) :
    (BitVec.ofNat (hi + 1) (field w hi 0)).toNat = field w hi 0 := by
  rw [BitVec.toNat_ofNat]
  exact Nat.mod_eq_of_lt (field_lt w hi 0)

/-- A word with the bits `27:10` and `7:6` zero, by its code and its version (R71). -/
theorem field_low_of_code_version {w : Word} (h10 : field w 27 10 = 0) (h6 : field w 7 6 = 0) :
    field w 27 0 = field w 9 8 * 2 ^ 8 + field w 5 0 := by
  simp only [field] at *
  omega

theorem wellFormed_and_encode_of_decode {w : Word} {i : Instr} (h : decode w = .command i) :
    WellFormed i = true ∧ encode i = w := by
  unfold decode at h
  split at h
  case h_1 hop | h_3 hop | h_10 hop =>
    obtain ⟨hz, ⟨⟩⟩ := whenZero_eq_command_iff.1 h
    refine ⟨rfl, opWord_of_fields hop ?_⟩
    rw [toNat_ofNat_field]
    simp only [field] at *
    omega
  case h_2 hop =>
    obtain ⟨hz, ⟨⟩⟩ := whenZero_eq_command_iff.1 h
    have hwm1 := field_lt w 19 16
    refine ⟨(wellFormed_push_iff _ _).2 (by omega), opWord_of_fields hop ?_⟩
    rw [toNat_ofNat_field]
    simp only [field] at *
    omega
  case h_6 hop =>
    obtain ⟨h10, h⟩ := whenZero_eq_command_iff.1 h
    obtain ⟨h6, h⟩ := whenZero_eq_command_iff.1 h
    split at h
    case h_1 => cases h
    case h_2 m hm =>
      cases h
      refine ⟨rfl, opWord_of_fields hop ?_⟩
      rw [modeCode_of_modeOfCode hm, toNat_ofNat_field, field_low_of_code_version h10 h6]
  case h_11 hop =>
    obtain ⟨h10, h⟩ := whenZero_eq_command_iff.1 h
    obtain ⟨h6, ⟨⟩⟩ := whenZero_eq_command_iff.1 h
    refine ⟨rfl, opWord_of_fields hop ?_⟩
    rw [ecCode_ecOfCode (field_lt w 9 8), toNat_ofNat_field,
      field_low_of_code_version h10 h6]
  case h_12 => cases h
  case h_4 hop | h_5 hop | h_7 hop | h_8 hop | h_9 hop =>
    obtain ⟨hz, ⟨⟩⟩ := whenZero_eq_command_iff.1 h
    exact ⟨rfl, opWord_of_fields hop hz⟩

/-- Settles O1: each form's word, built from its fields, gives the fields back. -/
theorem decodeOfEncodeIsTheInstruction : Obligations.DecodeOfEncodeIsTheInstruction :=
  fun _ => decode_encode

/-- Settles O2: the bits a format marks `0` are 0 in a word that decodes, so the operands and the
opcode are all of it. -/
theorem decodedWordIsTheEncodingOfItsCommand :
    Obligations.DecodedWordIsTheEncodingOfItsCommand :=
  fun _ _ => wellFormed_and_encode_of_decode

/-- Settles O4: eleven closed words, each run through the decoder. -/
theorem writtenOutWordsDecode : Obligations.WrittenOutWordsDecode := by
  unfold Obligations.WrittenOutWordsDecode
  decide

end Sys2Proof
end

section
/-! PROOFS. Everything a command can leave, said once over the eleven meanings, and what one step
can do. The frames, the block's invariant and the host's bound are read off these cases. -/

namespace Sys2Proof.Machine

/-- `t` is a state the command `i` can leave in `s`: a fault's entry (60_exceptions.md R189), or the
command's own effect and answer. -/
inductive Leaves (s : State) : Instr → State → Prop where
  | fault (i : Instr) (c : FaultCode) : Leaves s i (faulted s c.code)
  | new (hint : BitVec 16) : Leaves s (.new hint) s.fresh.respondOk
  | append {i : Instr} (bits : List Bool) (happends : appendsDirectly i = true) :
      Leaves s i (s.append bits).respondOk
  | parts :
      Leaves s .parts
        (s.consume.respond .ok none (some (bytesOf s.accS))
          (some (BitVec.ofNat 3 (shiftOf s.accS))))
  | analyze : Leaves s .analyze (s.respond .ok (some (modeNumbers (modeOf s.text))) none none)
  | finish (required : BitVec 16) :
      Leaves s (.finish required) (s.consume.answerFinish required.toNat none)
  | encode (ver : BitVec 6) (ec : ECLevel) (bits : List Bool) (m : Mode) :
      Leaves s (.encode ver ec)
        ((s.fresh.append bits).consume.answerFinish (capacity ver.toNat ec)
          (some (modeNumbers m)))

theorem exec_leaves (i : Instr) (s : State) : ∃ t, exec i s = .next t ∧ Leaves s i t := by
  cases i with
  | new hint => exact ⟨_, rfl, .new hint⟩
  | push value width =>
    obtain ⟨-, he⟩ | ⟨-, -, he⟩ | ⟨-, -, he⟩ := execPush_cases value width s
    · exact ⟨_, he, .fault _ .notActive⟩
    · exact ⟨_, he, .fault _ .pushOperand⟩
    · exact ⟨_, he, .append _ rfl⟩
  | pushb value =>
    obtain ⟨-, he⟩ | ⟨-, he⟩ := execPushb_cases value s
    · exact ⟨_, he, .fault _ .notActive⟩
    · exact ⟨_, he, .append _ rfl⟩
  | parts =>
    obtain ⟨-, he⟩ | ⟨-, he⟩ := execParts_cases s
    · exact ⟨_, he, .fault _ .notActive⟩
    · exact ⟨_, he, .parts⟩
  | analyze => exact ⟨_, rfl, modeField_eq _ ▸ .analyze⟩
  | hdr mode ver =>
    obtain ⟨-, he⟩ | ⟨-, -, he⟩ | ⟨-, -, c, -, he⟩ | ⟨-, -, -, band, -, -, he⟩ :=
      execHdr_cases mode ver s
    · exact ⟨_, he, .fault _ .versionRange⟩
    · exact ⟨_, he, .fault _ .notActive⟩
    · exact ⟨_, he, .fault _ c⟩
    · exact ⟨_, he, .append _ rfl⟩
  | dnum =>
    obtain ⟨-, he⟩ | ⟨-, -, he⟩ | ⟨-, -, he⟩ := execDnum_cases s
    · exact ⟨_, he, .fault _ .notActive⟩
    · exact ⟨_, he, .fault _ .nonDigit⟩
    · exact ⟨_, he, .append _ rfl⟩
  | dalnum =>
    obtain ⟨-, he⟩ | ⟨-, he⟩ := execDalnum_cases s
    · exact ⟨_, he, .fault _ .notActive⟩
    · exact ⟨_, he, .append _ rfl⟩
  | dbyte =>
    obtain ⟨-, he⟩ | ⟨-, he⟩ := execDbyte_cases s
    · exact ⟨_, he, .fault _ .notActive⟩
    · exact ⟨_, he, .append _ rfl⟩
  | finish required =>
    obtain ⟨-, he⟩ | ⟨-, he⟩ := execFinish_cases required s
    · exact ⟨_, he, .fault _ .notActive⟩
    · exact ⟨_, he, .finish required⟩
  | encode ver ec =>
    obtain ⟨-, he⟩ | ⟨-, -, he⟩ | ⟨-, -, band, -, -, he⟩ := execEncode_cases ver ec s
    · exact ⟨_, he, .fault _ .versionRange⟩
    · exact ⟨_, he, .fault _ .textNotUtf8⟩
    · exact ⟨_, he, modeField_eq _ ▸ .encode ver ec _ _⟩

theorem leaves_of_exec {i : Instr} {s t : State} (h : exec i s = .next t) : Leaves s i t := by
  obtain ⟨u, hu, hleaves⟩ := exec_leaves i s
  cases hu.symm.trans h
  exact hleaves

namespace Leaves

variable {i : Instr} {s t : State}

theorem text (h : Leaves s i t) : t.text = s.text := by
  cases h <;> simp [faulted]

theorem pending (h : Leaves s i t) : t.pending = s.pending := by
  cases h <;> simp [faulted]

/-- A command answers, with FAULT and ACC.active as they are after it (10_state.md R29). -/
theorem responds (h : Leaves s i t) :
    ∃ r, t.response = some r ∧ r.fault = t.fault ∧ r.active = t.accActive := by
  cases h with
  | finish required =>
    obtain ⟨-, he⟩ | ⟨b, -, -, he⟩ := answerFinish_cases s.consume required.toNat none <;>
      exact he ▸ ⟨_, rfl, rfl, rfl⟩
  | encode ver ec bits m =>
    obtain ⟨-, he⟩ | ⟨b, -, -, he⟩ := answerFinish_cases (s.fresh.append bits).consume
        (capacity ver.toNat ec) (some (modeNumbers m)) <;>
      exact he ▸ ⟨_, rfl, rfl, rfl⟩
  | fault | new | append | parts | analyze => exact ⟨_, rfl, rfl, rfl⟩

/-- The earlier bits stay in front, but under NEW and ENCODE (20_memory.md R40). -/
theorem accS_prefix (h : Leaves s i t) (hkeeps : replacesBits i = false) : s.accS <+: t.accS := by
  cases h with
  | fault i c => exact List.prefix_refl _
  | append bits happends => exact List.prefix_append _ _
  | parts => exact List.prefix_refl _
  | analyze => exact List.prefix_refl _
  | finish required => rw [State.answerFinish_accS, State.consume_accS]
  | new hint => cases hkeeps
  | encode ver ec bits m => cases hkeeps

theorem accS_eq (h : Leaves s i t) (happends : appendsDirectly i = false)
    (hkeeps : replacesBits i = false) : t.accS = s.accS := by
  cases h with
  | fault i c => rfl
  | append bits h => simp [h] at happends
  | parts => rfl
  | analyze => rfl
  | finish required => rw [State.answerFinish_accS, State.consume_accS]
  | new hint => cases hkeeps
  | encode ver ec bits m => cases hkeeps

end Leaves

/-- What performing a word does, in the order of R188: the refusal, ILLEGAL_COMMAND, or what the
decoded command leaves. -/
theorem perform_cases (w : Word) (s : State) :
    (s.fault ≠ 0 ∧ perform w s = .next s.refuse) ∨
    (s.fault = 0 ∧ perform w s = .next (faulted s 1)) ∨
    (s.fault = 0 ∧ ∃ i t, decode w = .command i ∧ perform w s = .next t ∧ Leaves s i t) := by
  by_cases hs : s.fault = 0
  · cases hd : decode w with
    | illegal why => exact .inr (.inl ⟨hs, perform_of_illegal hs hd⟩)
    | command i =>
      obtain ⟨t, ht, hleaves⟩ := exec_leaves i s
      exact .inr (.inr ⟨hs, i, t, rfl, (perform_of_command hs hd).trans ht, hleaves⟩)
  · exact .inl ⟨hs, perform_of_fault hs⟩

/-- A performed word leaves the ports as the host set them, and answers. -/
theorem perform_responds (w : Word) (s : State) :
    ∃ t, perform w s = .next t ∧ t.pending = s.pending ∧ t.text = s.text ∧
      ∃ r, t.response = some r ∧ r.fault = t.fault ∧ r.active = t.accActive := by
  obtain ⟨-, he⟩ | ⟨-, he⟩ | ⟨-, i, t, -, he, h⟩ := perform_cases w s
  · exact ⟨_, he, rfl, rfl, _, rfl, rfl, rfl⟩
  · exact ⟨_, he, rfl, rfl, _, rfl, rfl, rfl⟩
  · exact ⟨t, he, h.pending, h.text, h.responds⟩

/-- What one step does, by the host's next move. -/
theorem step_cases {s t : State} (h : step s = .next t) :
    (s.pending = [] ∧ t = s) ∨
    (∃ rest, s.pending = .reset :: rest ∧ t = State.assertReset { s with pending := rest }) ∨
    ∃ w text rest, s.pending = .command w text :: rest ∧
      perform w { s with pending := rest, text := text } = .next t := by
  cases hp : s.pending with
  | nil =>
    cases (step_of_idle hp).symm.trans h
    exact .inl ⟨rfl, rfl⟩
  | cons move rest =>
    cases move with
    | reset =>
      cases (step_of_reset hp).symm.trans h
      exact .inr (.inl ⟨rest, rfl, rfl⟩)
    | command w text => exact .inr (.inr ⟨w, text, rest, rfl, (step_of_command hp).symm.trans h⟩)

theorem step_goes_on (s : State) : ∃ t, step s = .next t := by
  cases hp : s.pending with
  | nil => exact ⟨s, step_of_idle hp⟩
  | cons move rest =>
    cases move with
    | reset => exact ⟨_, step_of_reset hp⟩
    | command w text =>
      obtain ⟨t, ht, -⟩ := perform_responds w { s with pending := rest, text := text }
      exact ⟨t, (step_of_command hp).trans ht⟩

/-- What every step keeps, every run keeps; the premise may count the steps still to come. -/
theorem run_keeps {P : Nat → State → Prop}
    (hstep : ∀ n s t, P (n + 1) s → step s = .next t → P n t) {n : Nat} {s t : State}
    (hs : P n s) (hrun : Host.Core.run Sys2Proof.core n s = .next t) : P 0 t := by
  induction n generalizing s with
  | zero =>
    cases (run_zero s).symm.trans hrun
    exact hs
  | succ n ih =>
    obtain ⟨u, hu⟩ := step_goes_on s
    exact ih (hstep n s u hs hu) ((run_of_next n hu).symm.trans hrun)

end Sys2Proof.Machine
end

section
/-! PROOFS. The frames of every command (10_state.md R30; 20_memory.md R40). -/

namespace Sys2Proof.Machine

/-- Settles O45: read off what a command can leave. -/
theorem accumulatorIsAppendOnly : Obligations.AccumulatorIsAppendOnly := by
  refine ⟨fun i s t ht hkeeps => (leaves_of_exec ht).accS_prefix hkeeps, ?_⟩
  rintro i s t ht (rfl | rfl | ⟨required, rfl⟩) <;> exact (leaves_of_exec ht).accS_eq rfl rfl

theorem answerFinish_withText (s : State) (required : Nat) (mode : Option ModeField)
    (text : List Byte) :
    State.answerFinish { s with text := text } required mode =
      { s.answerFinish required mode with text := text } := by
  cases h : finishResult (bytesOf s.accS) (shiftOf s.accS) required with
  | none =>
    rw [answerFinish_of_none mode h]
    exact answerFinish_of_none (s := { s with text := text }) mode h
  | some b =>
    rw [answerFinish_of_some mode h]
    exact answerFinish_of_some (s := { s with text := text }) mode h

/-- A command that reads no text does the same on every text. -/
theorem exec_withText {i : Instr} (s : State) (text : List Byte) (h : readsText i = false) :
    ∃ t, exec i s = .next t ∧ exec i { s with text := text } = .next { t with text := text } := by
  have hfaults : needsActive i = true → versionOperand i = none → s.accActive = false →
      ∃ t, exec i s = .next t ∧
        exec i { s with text := text } = .next { t with text := text } :=
    fun hneeds hno ha => ⟨_, exec_of_consumed_of_no_version hneeds hno ha,
      exec_of_consumed_of_no_version (s := { s with text := text }) hneeds hno ha⟩
  cases i with
  | new hint => exact ⟨_, rfl, rfl⟩
  | push value width =>
    obtain ha | ha := active_or s
    · exact hfaults rfl rfl ha
    · obtain hv | hv := Nat.lt_or_ge value.toNat (2 ^ width)
      · exact ⟨_, exec_push_of_fits ha hv, exec_push_of_fits (s := { s with text := text }) ha hv⟩
      · exact ⟨_, exec_push_of_overflow ha hv,
          exec_push_of_overflow (s := { s with text := text }) ha hv⟩
  | pushb value =>
    obtain ha | ha := active_or s
    · exact hfaults rfl rfl ha
    · exact ⟨_, exec_pushb_of_live value ha,
        exec_pushb_of_live (s := { s with text := text }) value ha⟩
  | parts =>
    obtain ha | ha := active_or s
    · exact hfaults rfl rfl ha
    · exact ⟨_, exec_parts_of_live ha, exec_parts_of_live (s := { s with text := text }) ha⟩
  | finish required =>
    obtain ha | ha := active_or s
    · exact hfaults rfl rfl ha
    · refine ⟨_, exec_finish_of_live ha, ?_⟩
      rw [exec_finish_of_live (s := { s with text := text }) ha]
      exact congrArg Host.Outcome.next (answerFinish_withText s.consume _ _ text)
  | analyze | hdr _ _ | dnum | dalnum | dbyte | encode _ _ => cases h

/-- Settles O46: what a command leaves keeps both ports, and the five commands that read no text
were taken one by one. -/
theorem textIsReadOnlyAndReadBySixCommands : Obligations.TextIsReadOnlyAndReadBySixCommands :=
  ⟨fun _ _ _ ht => ⟨(leaves_of_exec ht).text, (leaves_of_exec ht).pending⟩,
    fun _ s text => exec_withText s text⟩

end Sys2Proof.Machine
end

section
/-! PROOFS. The step, reset and faults (60_exceptions.md R190, R191; 70_reset_and_hazards.md R210).
-/

namespace Sys2Proof.Machine

/-- Settles O10: an idle step and a reset go on, and a performed word keeps the ports and answers.
-/
theorem everyStepGoesOnAndEveryCommandResponds :
    Obligations.EveryStepGoesOnAndEveryCommandResponds := by
  intro s
  obtain ⟨t, ht⟩ := step_goes_on s
  refine ⟨t, ht, fun w text rest hp => ?_⟩
  obtain ⟨u, hu, h⟩ := perform_responds w { s with pending := rest, text := text }
  cases ((step_of_command hp).trans hu).symm.trans ht
  exact h

/-- Settles O5: the step's own equation for a command, then the order of `perform`. -/
theorem stepPerformsTheDecodedCommand : Obligations.StepPerformsTheDecodedCommand :=
  fun _ _ _ _ hp => ⟨step_of_command hp,
    fun _ hs hd => (step_of_command hp).trans (perform_of_command hs hd)⟩

/-- Settles O9: an idle step's own equation. -/
theorem idleBlockHoldsItsState : Obligations.IdleBlockHoldsItsState :=
  fun _ => step_of_idle

/-- With a fault recorded and a move that is no reset, a step keeps the block's state: it is idle or
refuses the word. -/
theorem step_of_fault {s t : State} (hs : s.fault ≠ 0) (h : step s = .next t) :
    (∃ rest, s.pending = .reset :: rest) ∨
    (t.fault = s.fault ∧ t.accS = s.accS ∧ t.accActive = s.accActive ∧
      ∀ m ∈ t.pending, m ∈ s.pending) := by
  obtain ⟨-, rfl⟩ | ⟨rest, hp, -⟩ | ⟨w, text, rest, hp, he⟩ := step_cases h
  · exact .inr ⟨rfl, rfl, rfl, fun _ => id⟩
  · exact .inl ⟨rest, hp⟩
  · have hrefused := perform_of_fault (w := w)
      (s := { s with pending := rest, text := text }) hs
    cases hrefused.symm.trans he
    exact .inr ⟨rfl, rfl, rfl, fun m hm => hp ▸ List.mem_cons_of_mem _ hm⟩

/-- Settles O8: reset's own equation; and a step from a recorded fault keeps it if it is no reset.
-/
theorem resetMoveRestoresTheBlockAndAloneClearsFault :
    Obligations.ResetMoveRestoresTheBlockAndAloneClearsFault := by
  refine ⟨fun s rest => step_of_reset, fun s t ht hs hcleared => ?_⟩
  obtain hreset | ⟨hfault, -⟩ := step_of_fault hs ht
  · exact hreset
  · exact absurd (hfault.symm.trans hcleared) hs

/-- What a run without reset keeps of the state `s` it starts from. -/
def KeptSince (s t : State) : Prop :=
  (t.fault = s.fault ∧ t.accS = s.accS ∧ t.accActive = s.accActive) ∧ HostMove.reset ∉ t.pending

theorem step_keeps_keptSince {s t u : State} (hs : s.fault ≠ 0) (ht : KeptSince s t)
    (hu : step t = .next u) : KeptSince s u := by
  obtain ⟨⟨hfault, hbits, hactive⟩, hno⟩ := ht
  obtain ⟨rest, hp⟩ | ⟨hf, hb, ha, hmem⟩ := step_of_fault (hfault ▸ hs) hu
  · exact absurd (hp ▸ List.mem_cons_self) hno
  · exact ⟨⟨hf.trans hfault, hb.trans hbits, ha.trans hactive⟩, fun h => hno (hmem _ h)⟩

/-- Settles O14: by induction on the steps, the moves still to come holding no reset. -/
theorem recordedFaultOutlastsEveryRunWithoutReset :
    Obligations.RecordedFaultOutlastsEveryRunWithoutReset := by
  intro n s t hs hno hrun
  have hkept : KeptSince s t :=
    run_keeps (P := fun _ => KeptSince s) (fun _ _ _ => step_keeps_keptSince hs)
      ⟨⟨rfl, rfl, rfl⟩, hno⟩ hrun
  exact hkept.1

end Sys2Proof.Machine
end

section
/-! PROOFS. The invariant of the block: which answers fit the state they are given in. -/

namespace Sys2Proof.Machine

/-- An answer with no field fits when its status says whether a fault is recorded, and an overflow
has consumed. -/
theorem inv_respond_bare {s : State} {status : Status} (hs : s.fault.toNat ≤ 6)
    (hstatus : status = .fault ↔ s.fault ≠ 0)
    (hoverflow : status = .capacityExceeded → s.accActive = false) :
    Inv (s.respond status none none none) := by
  refine ⟨hs, ?_⟩
  rintro r ⟨⟩
  exact ⟨rfl, rfl, hstatus, fun _ => ⟨rfl, rfl, rfl⟩, hoverflow, nofun, nofun, nofun⟩

/-- An OK answer fits when each field it carries does. -/
theorem inv_respond_ok {s : State} {mode : Option ModeField} {bytes : Option (List Byte)}
    {shift : Option (BitVec 3)} (hs : s.fault = 0)
    (hmode : ∀ m, mode = some m → ∃ k, m = modeNumbers k)
    (hbytes : ∀ b, bytes = some b → s.accActive = false ∧ bytesOf s.accS <+: b)
    (hshift : ∀ n, shift = some n →
      bytes = some (bytesOf s.accS) ∧ n.toNat = s.accS.length % 8) :
    Inv (s.respond .ok mode bytes shift) := by
  refine ⟨by simp [hs], ?_⟩
  rintro r ⟨⟩
  exact ⟨rfl, rfl, by simp [hs], fun h => absurd rfl h, nofun, hbytes, hshift, hmode⟩

theorem inv_respondOk {s : State} (hs : s.fault = 0) : Inv s.respondOk :=
  inv_respond_ok hs nofun nofun nofun

theorem inv_faulted (s : State) (c : FaultCode) : Inv (faulted s c.code) :=
  inv_respond_bare (s := { s with fault := c.code }) (status := .fault) (code_le_six c)
    (by simpa using code_ne_zero c) nofun

theorem inv_refuse {s : State} (hs : s.fault.toNat ≤ 6) (hfault : s.fault ≠ 0) : Inv s.refuse :=
  inv_respond_bare hs (by simpa using hfault) nofun

/-- Both answers of the filler fit a consumed accumulator; the finished bytes begin with the content
(43_finish_and_encode.md R165). -/
theorem inv_answerFinish {s : State} {required : Nat} {mode : Option ModeField} (hs : s.fault = 0)
    (hconsumed : s.accActive = false) (hmode : ∀ m, mode = some m → ∃ k, m = modeNumbers k) :
    Inv (s.answerFinish required mode) := by
  obtain ⟨-, he⟩ | ⟨b, hb, -, he⟩ := answerFinish_cases s required mode
  · exact he ▸ inv_respond_bare (by simp [hs]) (by simp [hs]) fun _ => hconsumed
  · obtain ⟨-, hprefix, -, -⟩ := finishResult_some hb
    refine he ▸ inv_respond_ok hs hmode ?_ nofun
    rintro _ ⟨⟩
    exact ⟨hconsumed, hprefix⟩

theorem Leaves.inv {i : Instr} {s t : State} (h : Leaves s i t) (hs : s.fault = 0) : Inv t := by
  cases h with
  | fault i c => exact inv_faulted s c
  | new hint => exact inv_respondOk hs
  | append bits happends => exact inv_respondOk hs
  | parts =>
    refine inv_respond_ok hs nofun ?_ ?_
    · rintro _ ⟨⟩
      exact ⟨rfl, List.prefix_refl _⟩
    · rintro _ ⟨⟩
      refine ⟨rfl, ?_⟩
      rw [BitVec.toNat_ofNat, shiftOf, State.consume_accS]
      exact Nat.mod_mod _ _
  | analyze =>
    refine inv_respond_ok hs ?_ nofun nofun
    rintro _ ⟨⟩
    exact ⟨_, rfl⟩
  | finish required => exact inv_answerFinish hs rfl nofun
  | encode ver ec bits m =>
    refine inv_answerFinish hs rfl ?_
    rintro _ ⟨⟩
    exact ⟨_, rfl⟩

theorem inv_of_no_response {s : State} (hs : s.fault = 0) (hr : s.response = none) : Inv s :=
  ⟨by simp [hs], by simp [hr]⟩

/-- Settles O16: no fault and no response yet. -/
theorem blockInvariantHoldsAtReset : Obligations.BlockInvariantHoldsAtReset :=
  inv_of_no_response rfl rfl

/-- Settles O15: an idle step keeps the state, a reset leaves no response, and each answer a word
can give fits the state it is given in. -/
theorem stepKeepsTheBlockInvariant : Obligations.StepKeepsTheBlockInvariant := by
  intro s t hinv ht
  obtain ⟨-, rfl⟩ | ⟨rest, -, rfl⟩ | ⟨w, text, rest, -, hp⟩ := step_cases ht
  · exact hinv
  · exact inv_of_no_response rfl rfl
  · obtain ⟨hs, he⟩ | ⟨-, he⟩ | ⟨hs, i, u, -, he, hleaves⟩ :=
      perform_cases w { s with pending := rest, text := text } <;> cases he.symm.trans hp
    · exact inv_refuse hinv.fault_code hs
    · exact inv_faulted _ .illegalCommand
    · exact hleaves.inv hs

end Sys2Proof.Machine
end

section
/-! PROOFS. The bound a dutiful host keeps (00_scope.md R8; 70_reset_and_hazards.md R213). -/

namespace Sys2Proof.Machine

theorem LiveBufferBounded.congr {s t : State} (h : LiveBufferBounded s) (hS : t.accS = s.accS)
    (hactive : t.accActive = s.accActive) : LiveBufferBounded t := by
  unfold LiveBufferBounded
  rwa [hS, hactive]

theorem liveBufferBounded_of_consumed {s : State} (h : s.accActive = false) :
    LiveBufferBounded s :=
  fun hlive => absurd (h.symm.trans hlive) Bool.false_ne_true

theorem liveBufferBounded_of_empty {s : State} (h : s.accS = []) : LiveBufferBounded s := by
  intro _
  rw [h, byteLen_nil]
  exact Nat.zero_le _

/-- A command keeps the bound if an append that does not fault keeps it, which duty 2 asks. -/
theorem Leaves.liveBufferBounded {i : Instr} {s t : State} (h : Leaves s i t)
    (hs : LiveBufferBounded s) (hnofault : s.fault = 0)
    (hduty : appendsDirectly i = true → t.fault = 0 → byteLen t.accS ≤ Config.maxBufBytes) :
    LiveBufferBounded t := by
  cases h with
  | fault i c => exact hs.congr rfl rfl
  | new hint => exact liveBufferBounded_of_empty rfl
  | append bits happends => exact fun _ => hduty happends hnofault
  | parts => exact liveBufferBounded_of_consumed rfl
  | analyze => exact hs.congr rfl rfl
  | finish required => exact liveBufferBounded_of_consumed (State.answerFinish_accActive _ _ _)
  | encode ver ec bits m =>
    exact liveBufferBounded_of_consumed (State.answerFinish_accActive _ _ _)

theorem step_keeps_liveBufferBounded {s t : State} (hduties : NextMoveMeetsDuties s)
    (hs : LiveBufferBounded s) (ht : step s = .next t) : LiveBufferBounded t := by
  obtain ⟨-, rfl⟩ | ⟨rest, -, rfl⟩ | ⟨w, text, rest, hmove, hp⟩ := step_cases ht
  · exact hs
  · exact liveBufferBounded_of_empty rfl
  · obtain ⟨-, he⟩ | ⟨-, he⟩ | ⟨hnofault, i, u, hd, he, hleaves⟩ :=
      perform_cases w { s with pending := rest, text := text } <;> cases he.symm.trans hp
    · exact hs.congr rfl rfl
    · exact hs.congr rfl rfl
    · obtain ⟨-, hduty2⟩ := hduties w text rest i hmove hnofault hd
      exact hleaves.liveBufferBounded (hs.congr rfl rfl) hnofault fun ha => hduty2 ha t ht

/-- Settles O44: by induction on the steps, the duties of each move kept for its step. -/
theorem dutifulHostKeepsTheLiveBufferBounded :
    Obligations.DutifulHostKeepsTheLiveBufferBounded := by
  intro n s t hduties hs hrun
  have hkept := run_keeps (P := fun n s => HostDutiesMet n s ∧ LiveBufferBounded s)
    (fun n s t ⟨⟨hnext, hrest⟩, hb⟩ ht =>
      ⟨hrest t ht, step_keeps_liveBufferBounded hnext hb ht⟩) ⟨hduties, hs⟩ hrun
  exact hkept.2

end Sys2Proof.Machine
end

section
/-! PROOFS. Runs of encoded words: sequences of PUSH (10_state.md R26), PUSHZ and SEG
(30_encoding.md R81), the host issuing each as a pending move. -/

namespace Sys2Proof.Machine

/-- A step on the word of a well-formed command is that command. -/
theorem step_of_encoded {s : State} {i : Instr} {text : List Byte} {rest : List HostMove}
    (hs : s.fault = 0) (hi : WellFormed i = true)
    (hp : s.pending = .command (encode i) text :: rest) :
    step s = exec i { s with pending := rest, text := text } :=
  (step_of_command hp).trans (perform_of_command hs (decode_encode hi))

theorem append_respondOk_eq {s : State} (bits : List Bool) (hs : s.fault = 0)
    (ha : s.accActive = true) :
    (s.append bits).respondOk =
      { s with accS := s.accS ++ bits, response := some (bareResponse .ok 0 true) } := by
  simp [State.append, State.respondOk, State.respond, bareResponse, hs, ha]

/-- A step on the word of a command that appends `bits` on a live accumulator. -/
theorem step_of_appending {s : State} {i : Instr} {text : List Byte} {rest : List HostMove}
    {bits : List Bool} (hs : s.fault = 0) (ha : s.accActive = true) (hi : WellFormed i = true)
    (hp : s.pending = .command (encode i) text :: rest)
    (hexec : ∀ u : State, u.accActive = true → u.text = text →
      exec i u = .next (u.append bits).respondOk) :
    step s = .next
      { s with
        pending := rest, text := text, accS := s.accS ++ bits,
        response := some (bareResponse .ok 0 true) } := by
  refine (step_of_encoded hs hi hp).trans
    ((hexec { s with pending := rest, text := text } ha rfl).trans ?_)
  exact congrArg Host.Outcome.next
    (append_respondOk_eq (s := { s with pending := rest, text := text }) bits hs ha)

/-- The move that issues a PUSH of a value and a width. -/
def pushMove (text : List Byte) (p : BitVec 16 × Nat) : HostMove :=
  .command (encode (.push p.1 p.2)) text

/-- The pushes one after another, from any live accumulator. -/
theorem run_pushes {pushes : List (BitVec 16 × Nat)} {text : List Byte} {s : State}
    (hlegal : ∀ p ∈ pushes, 1 ≤ p.2 ∧ p.2 ≤ 16 ∧ p.1.toNat < 2 ^ p.2) (hs : s.fault = 0)
    (ha : s.accActive = true) (hp : s.pending = pushes.map (pushMove text)) :
    ∃ t, Host.Core.run Sys2Proof.core pushes.length s = .next t ∧ t.fault = 0 ∧
      t.accActive = true ∧ t.accS.length = s.accS.length + (pushes.map (·.2)).sum := by
  induction pushes generalizing s with
  | nil => exact ⟨s, run_zero s, hs, ha, rfl⟩
  | cons p rest ih =>
    obtain ⟨⟨h1, h16, hfits⟩, hrest⟩ := List.forall_mem_cons.1 hlegal
    have hstep := step_of_appending hs ha ((wellFormed_push_iff p.1 p.2).2 ⟨h1, h16⟩) hp
      fun _ hlive _ => exec_push_of_fits hlive hfits
    obtain ⟨t, ht, hfault, hactive, hlen⟩ := ih (s := { s with
      pending := rest.map (pushMove text), text := text, accS := s.accS ++ bitsOf p.2 p.1.toNat,
      response := some (bareResponse .ok 0 true) }) hrest hs ha rfl
    refine ⟨t, (run_of_next _ hstep).trans ht, hfault, hactive, ?_⟩
    rw [hlen, List.length_append, length_bitsOf, List.map_cons, List.sum_cons, Nat.add_assoc]

/-- Settles O22: the bit count is the sum of the widths, and both views are read off it. -/
theorem pushSequenceHoldsTheSumOfItsWidths : Obligations.PushSequenceHoldsTheSumOfItsWidths := by
  intro pushes text s hlegal hs ha hempty
  obtain ⟨t, ht, hfault, hactive, hlen⟩ := run_pushes (text := text)
    (s := { s with pending := pushes.map (pushMove text) }) hlegal hs ha rfl
  rw [hempty, List.length_nil, Nat.zero_add] at hlen
  exact ⟨t, ht, hfault, hactive, by rw [byteLen, hlen], by rw [shiftOf, hlen]⟩

/-- Settles O36: PUSHZ is PUSH of the value 0, which fits every width. -/
theorem pushzAppendsZeroBits : Obligations.PushzAppendsZeroBits := by
  intro s text w h1 h16 hs ha hp
  have hfits : (0 : BitVec 16).toNat < 2 ^ w := Nat.two_pow_pos w
  rw [← bitsOf_zero w]
  exact step_of_appending hs ha ((wellFormed_push_iff 0 w).2 ⟨h1, h16⟩) hp
    fun _ hlive _ => exec_push_of_fits hlive hfits

theorem wellFormed_dataCommand (m : Mode) : WellFormed (dataCommand m) = true := by
  cases m <;> rfl

/-- HDR with its version's band named. -/
theorem exec_hdr_of_band {m : Mode} {ver : BitVec 6} {band : Band} {s : State} {text : List Byte}
    (hband : bandOf ver.toNat = some band) (hver : LegalVersion ver) (ha : s.accActive = true)
    (hs : s.text = text) (htext : textFault m text = none) :
    exec (.hdr m ver) s = .next (s.append (headerBits band m text)).respondOk := by
  subst hs
  obtain ⟨hc, -⟩ | ⟨-, hc, -⟩ | ⟨-, -, c, hc, -⟩ | ⟨-, -, -, band', hband', -, he⟩ :=
    execHdr_cases m ver s
  · exact absurd hver hc
  · simp [ha] at hc
  · simp [htext] at hc
  · cases hband.symm.trans hband'
    exact he

/-- The data command of a mode takes every text its header does. -/
theorem exec_dataCommand {m : Mode} {s : State} {text : List Byte} (ha : s.accActive = true)
    (hs : s.text = text) (htext : textFault m text = none) :
    exec (dataCommand m) s = .next (s.append (dataBits m text)).respondOk := by
  subst hs
  cases m with
  | numeric => exact exec_dnum_of_digits ha (((textFault_eq_none_iff _ _).1 htext).1 rfl)
  | alphanumeric => exact exec_dalnum_of_live ha
  | byte => exact exec_dbyte_of_live ha

/-- A header that does not fault and its data command append the segment. -/
theorem steps_of_seg {s : State} {m : Mode} {ver : BitVec 6} {text : List Byte}
    {rest : List HostMove} (hs : s.fault = 0) (ha : s.accActive = true) (hver : LegalVersion ver)
    (htext : textFault m text = none)
    (hp : s.pending =
      .command (encode (.hdr m ver)) text :: .command (encode (dataCommand m)) text :: rest) :
    ∃ band t, countWidth band m = countWidthOf ver.toNat m ∧ step s = .next t ∧ t.fault = 0 ∧
      step t = .next
        { s with
          pending := rest, text := text, accS := s.accS ++ segment band m text,
          response := some (bareResponse .ok 0 true) } := by
  obtain ⟨band, hband, hw⟩ := bandOf_of_legal hver
  have hhdr := step_of_appending hs ha rfl hp
    (fun _ hlive htx => exec_hdr_of_band hband hver hlive htx htext)
  have hdata := step_of_appending (s := { s with
      pending := .command (encode (dataCommand m)) text :: rest, text := text,
      accS := s.accS ++ headerBits band m text, response := some (bareResponse .ok 0 true) })
    hs ha (wellFormed_dataCommand m) rfl (fun _ hlive htx => exec_dataCommand hlive htx htext)
  rw [List.append_assoc] at hdata
  exact ⟨band, _, hw m, hhdr, hs, hdata⟩

/-- HDR faults, or its checks pass. -/
theorem exec_hdr_faults_or_passes (m : Mode) (ver : BitVec 6) (s : State) :
    (∃ c : FaultCode, exec (.hdr m ver) s = .next (faulted s c.code)) ∨
      (LegalVersion ver ∧ s.accActive = true ∧ textFault m s.text = none) := by
  obtain ⟨-, he⟩ | ⟨-, -, he⟩ | ⟨-, -, c, -, he⟩ | ⟨hver, ha, htext, -⟩ := execHdr_cases m ver s
  · exact .inl ⟨.versionRange, he⟩
  · exact .inl ⟨.notActive, he⟩
  · exact .inl ⟨c, he⟩
  · exact .inr ⟨hver, ha, htext⟩

/-- Settles O35: a faulting header has the data command refused; else the two commands append the
segment, whose fields are read past the earlier bits. -/
theorem segAppendsTheSegmentOrIsRefusedWhole :
    Obligations.SegAppendsTheSegmentOrIsRefusedWhole := by
  intro s text m ver hs hp
  obtain ⟨c, hc⟩ | ⟨hver, ha, htext⟩ := exec_hdr_faults_or_passes m ver
    { s with pending := [.command (encode (dataCommand m)) text], text := text }
  · refine ⟨_, _, (step_of_encoded hs rfl hp).trans hc,
      (step_of_command rfl).trans (perform_of_fault (code_ne_zero c)), fun _ => ⟨rfl, rfl⟩,
      fun h => absurd h (code_ne_zero c)⟩
  · obtain ⟨band, t, hw, ht, hfault, hu⟩ := steps_of_seg hs ha hver htext hp
    refine ⟨t, _, ht, hu, fun h => absurd hfault h, fun _ => ⟨rfl, ?_, ?_, ?_, ?_, ?_⟩⟩
    · rw [List.length_append, length_segment text hw]
    · exact List.take_left
    · exact (fieldAt_append_right s.accS _ 0 4).trans (fieldAt_segment_indicator band m text)
    · rw [← hw]
      exact (fieldAt_append_right s.accS _ 4 _).trans (fieldAt_segment_count band m text)
    · rw [← hw, Nat.add_assoc, ← List.drop_drop, List.drop_left, drop_segment]

end Sys2Proof.Machine
end

section
/-! PROOFS. What follows the content in finished bytes, and when ENCODE fits
(43_finish_and_encode.md R161 to R168). -/

namespace Sys2Proof.Machine

/-- In finished bytes the content's last byte ends in zeros, and the byte after it is a terminator
where four zero bits are not yet there (R162, R165). -/
theorem finishedBytes_terminator_bit {bits : List Bool} {r k : Nat} (hfits : byteLen bits ≤ r)
    (hlo : bits.length ≤ k) (hhi : k < bits.length + 4) (hroom : k < 8 * r) :
    ((finishedBytes bits r).getD (k / 8) 0).getLsbD (7 - k % 8) = false := by
  by_cases hin : k / 8 < byteLen bits
  · have hbyte : (finishedBytes bits r).getD (k / 8) 0 = (bytesOf bits).getD (k / 8) 0 := by
      rw [← take_finishedBytes bits r, List.getD_eq_getElem?_getD, List.getD_eq_getElem?_getD,
        List.getElem?_take_of_lt hin]
    rw [hbyte, bit_bytesOf, List.getD_eq_default _ _ hlo]
  · have hnext : k / 8 = byteLen bits := by simp only [byteLen] at hin ⊢; omega
    have hterm : terminatorBytes bits.length r = 1 := by
      simp only [byteLen] at hnext hfits
      unfold terminatorBytes freeAfter
      split_ifs <;> omega
    rw [hnext, List.getD_eq_getElem?_getD, getElem?_finishedBytes_terminator hterm,
      Option.getD_some]
    exact BitVec.getLsbD_zero

/-- Settles O38: bytes come with the OK answer only, and there they are the finished ones. -/
theorem finishedContentIsFollowedByTheTerminator :
    Obligations.FinishedContentIsFollowedByTheTerminator := by
  intro required s t r b ha ht hr hb k hlo hhi hroom
  obtain hover | hfits := Nat.lt_or_ge required.toNat (byteLen s.accS)
  · cases (exec_finish_of_overflow ha hover).symm.trans ht
    cases hr
    cases hb
  · cases (exec_finish_of_fits ha hfits).symm.trans ht
    cases hr
    cases hb
    exact finishedBytes_terminator_bit hfits hlo hhi hroom

/-- Settles O43: content that fits is all within the first `R + 1` bytes; content that does not
leaves `R + 1` of them, which overflow too. -/
theorem fillerNeedsOneByteMoreThanTheCapacity :
    Obligations.FillerNeedsOneByteMoreThanTheCapacity := by
  intro bits required
  obtain hover | hfits := Nat.lt_or_ge required (byteLen bits)
  · rw [finishResult_of_overflow hover, finishResult_eq_none_iff, List.length_take, length_bytesOf]
    omega
  · rw [List.take_of_length_le (by rw [length_bytesOf]; omega)]

/-- A legal ENCODE with its version's band named. -/
theorem exec_encode_of_band {ver : BitVec 6} (ec : ECLevel) {s : State} {band : Band}
    (hband : bandOf ver.toNat = some band) (hver : LegalVersion ver)
    (htext : validUtf8 s.text = true) :
    exec (.encode ver ec) s = .next
      (State.answerFinish
        { s with accS := segment band (modeOf s.text) s.text, accActive := false }
        (capacity ver.toNat ec) (some (modeNumbers (modeOf s.text)))) := by
  obtain ⟨hc, -⟩ | ⟨-, hc, -⟩ | ⟨-, -, band', hband', -, he⟩ := execEncode_cases ver ec s
  · exact absurd hver hc
  · simp [htext] at hc
  · cases hband.symm.trans hband'
    rw [modeField_eq] at he
    exact he

/-- Settles O41: what a legal ENCODE leaves names neither the bits nor the liveness it found. -/
theorem encodeIgnoresTheAccumulatorItFinds : Obligations.EncodeIgnoresTheAccumulatorItFinds := by
  intro ver ec s bits active hver htext
  obtain ⟨band, hband, -⟩ := bandOf_of_legal hver
  exact ⟨_, exec_encode_of_band ec hband hver htext,
    exec_encode_of_band (s := { s with accS := bits, accActive := active }) ec hband hver htext⟩

/-- Settles O40: the filler's verdict compares bytes, which is the same as comparing bits with
`8 * CAP`. -/
theorem encodeSucceedsExactlyWhenTheSegmentFits :
    Obligations.EncodeSucceedsExactlyWhenTheSegmentFits := by
  refine ⟨fun ver ec s hver htext => ?_, rfl, rfl⟩
  obtain ⟨band, hw, he⟩ := exec_encode_of_utf8 ec hver htext
  have hlen := length_segment s.text (hw (modeOf s.text))
  have hfit := byteLen_le_iff (segment band (modeOf s.text) s.text) (capacity ver.toNat ec)
  rw [hlen] at hfit
  obtain ⟨hover, ha⟩ | ⟨b, -, hfits, ha⟩ := answerFinish_cases
    { s with accS := segment band (modeOf s.text) s.text, accActive := false }
    (capacity ver.toNat ec) (some (modeNumbers (modeOf s.text)))
  · have hbits := Nat.lt_of_not_le (hfit.not.1 (Nat.not_le_of_lt hover))
    exact ⟨_, _, he.trans (congrArg _ ha), rfl, hlen, by simpa using hbits, by simpa using hbits⟩
  · have hbits := hfit.1 hfits
    exact ⟨_, _, he.trans (congrArg _ ha), rfl, hlen, by simpa using hbits, by simpa using hbits⟩

/-- The text check passes on the mode the selector chose. -/
theorem textFault_modeOf {text : List Byte} (h : validUtf8 text = true) :
    textFault (modeOf text) text = none := by
  rw [textFault_eq_none_iff]
  exact ⟨fun hm b hb => (isDigit_iff b).1 ((modeOf_eq_numeric_iff text).1 hm b hb), fun _ => h⟩

/-- Bands with the same width give the same segment. -/
theorem segment_congr {band band' : Band} {m : Mode} (text : List Byte)
    (h : countWidth band m = countWidth band' m) : segment band m text = segment band' m text := by
  rw [segment, segment, headerBits, headerBits, h]

/-- The filler's answers on the same bits, whatever mode an OK one carries. -/
theorem answerFinish_agree {s u : State} (r : Nat) (mode mode' : Option ModeField)
    (h : s.accS = u.accS) :
    ∃ p q, (s.answerFinish r mode).response = some p ∧ (u.answerFinish r mode').response = some q ∧
      p.status = q.status ∧ p.bytes = q.bytes ∧ q.status ≠ .fault := by
  cases hu : finishResult (bytesOf u.accS) (shiftOf u.accS) r with
  | none =>
    rw [answerFinish_of_none mode (h ▸ hu), answerFinish_of_none mode' hu]
    exact ⟨_, _, rfl, rfl, rfl, rfl, nofun⟩
  | some b =>
    rw [answerFinish_of_some mode (h ▸ hu), answerFinish_of_some mode' hu]
    exact ⟨_, _, rfl, rfl, rfl, rfl, nofun⟩

/-- The state in which the filler answers: `bits` consumed, no move to come. -/
def consumedWith (s : State) (text : List Byte) (bits : List Bool) (r : Option Response) : State :=
  { s with pending := [], text := text, accS := bits, accActive := false, response := r }

/-- NEW, HDR, the data command and FINISH: FINISH's answer on the segment. -/
theorem run_new_hdr_data_finish {s : State} {text : List Byte} {m : Mode} {ver : BitVec 6}
    {hint required : BitVec 16} (hs : s.fault = 0) (hver : LegalVersion ver)
    (htext : textFault m text = none)
    (hp : s.pending =
      [.command (encode (.new hint)) text, .command (encode (.hdr m ver)) text,
       .command (encode (dataCommand m)) text, .command (encode (.finish required)) text]) :
    ∃ band, countWidth band m = countWidthOf ver.toNat m ∧
      Host.Core.run Sys2Proof.core 4 s = .next
        ((consumedWith s text (segment band m text) (some (bareResponse .ok 0 true))).answerFinish
          required.toNat none) := by
  have hnew := step_of_encoded hs rfl hp
  obtain ⟨band, t, hw, ht, -, hu⟩ := steps_of_seg
    (s := (State.fresh { s with pending := _, text := text }).respondOk)
    (rest := [.command (encode (.finish required)) text]) hs rfl hver htext rfl
  refine ⟨band, hw, ?_⟩
  rw [run_of_next 3 hnew, run_of_next 2 ht, run_of_next 1 hu]
  refine run_of_next 0 ((step_of_encoded ?_ ?_ rfl).trans (exec_finish_of_live ?_))
  · exact hs
  · rfl
  · rfl

/-- ENCODE's answer on the segment, when it is the only move to come. -/
theorem run_encode {s : State} {text : List Byte} {ver : BitVec 6} {ec : ECLevel}
    (hs : s.fault = 0) (hver : LegalVersion ver) (htext : validUtf8 text = true)
    (hp : s.pending = [.command (encode (.encode ver ec)) text]) :
    ∃ band, countWidth band (modeOf text) = countWidthOf ver.toNat (modeOf text) ∧
      Host.Core.run Sys2Proof.core 1 s = .next
        ((consumedWith s text (segment band (modeOf text) text) s.response).answerFinish
          (capacity ver.toNat ec) (some (modeNumbers (modeOf text)))) := by
  obtain ⟨band, hw, he⟩ :=
    exec_encode_of_utf8 (s := { s with pending := [], text := text }) ec hver htext
  exact ⟨band, hw _, run_of_next 0 ((step_of_encoded hs rfl hp).trans he)⟩

/-- Settles O42: both sides end in the filler's answer on the same consumed segment. -/
theorem encodeEqualsNewHdrDataFinish : Obligations.EncodeEqualsNewHdrDataFinish := by
  intro s text ver ec hint required hs hver htext hcap
  obtain ⟨band, hw, hfour⟩ := run_new_hdr_data_finish
    (s := { s with
      pending :=
        [.command (encode (.new hint)) text, .command (encode (.hdr (modeOf text) ver)) text,
         .command (encode (dataCommand (modeOf text))) text,
         .command (encode (.finish required)) text] })
    hs hver (textFault_modeOf htext) rfl
  obtain ⟨band', hw', hone⟩ := run_encode
    (s := { s with pending := [.command (encode (.encode ver ec)) text] }) hs hver htext rfl
  rw [segment_congr text (hw.trans hw'.symm), hcap] at hfour
  obtain ⟨p, q, hp, hq, hstatus, hbytes, hne⟩ := answerFinish_agree
    (s := consumedWith s text (segment band' (modeOf text) text)
      (some (bareResponse .ok 0 true)))
    (u := consumedWith s text (segment band' (modeOf text) text) s.response)
    (capacity ver.toNat ec) none (some (modeNumbers (modeOf text))) rfl
  refine ⟨_, _, p, q, hfour, hone, ?_, ?_, ?_, hp, hq, hstatus, hbytes, hne⟩
  · rw [State.answerFinish_accS, State.answerFinish_accS]
    rfl
  · rw [State.answerFinish_accActive, State.answerFinish_accActive]
    rfl
  · rw [State.answerFinish_fault, State.answerFinish_fault]
    rfl

end Sys2Proof.Machine
end

section
/-! PROOFS. PUSH on the byte view (41_accumulator.md R102 to R104): the bits of a field within the
bytes it reaches, whole bytes before the last one untouched. -/

namespace Sys2Proof.Machine

theorem getD_append_bitsOf {bits : List Bool} {v w : Nat} (hv : v < 2 ^ w) (k : Nat) :
    (bits ++ bitsOf w v).getD k false =
      (bits.getD k false ||
        (decide (k < bits.length + w) && v.testBit (bits.length + w - 1 - k))) := by
  rw [List.getD_eq_getElem?_getD, List.getD_eq_getElem?_getD]
  by_cases hk : k < bits.length
  · have hhigh : v.testBit (bits.length + w - 1 - k) = false :=
      Nat.testBit_lt_two_pow (hv.trans_le (Nat.pow_le_pow_right (by decide) (by omega)))
    rw [List.getElem?_append_left hk, hhigh, Bool.and_false, Bool.or_false]
  · rw [List.getElem?_append_right (by omega), List.getElem?_eq_none (l := bits) (by omega),
      Option.getD_none, Bool.false_or]
    by_cases hkw : k - bits.length < w
    · rw [getElem?_bitsOf _ hkw, Option.getD_some, decide_eq_true (by omega), Bool.true_and,
        show w - 1 - (k - bits.length) = bits.length + w - 1 - k by omega]
    · rw [List.getElem?_eq_none (by rw [length_bitsOf]; omega), Option.getD_none,
        decide_eq_false (by omega), Bool.false_and]

/-- Byte `i` after an append is byte `i` before it, or'ed with the byte that carries the field's
bits. -/
theorem byteAt_append_bitsOf {bits : List Bool} {v w i : Nat} {b : Byte} (hv : v < 2 ^ w)
    (hb : ∀ j < 8, b.getLsbD (7 - j) =
      (decide (8 * i + j < bits.length + w) && v.testBit (bits.length + w - 1 - (8 * i + j)))) :
    byteAt (bits ++ bitsOf w v) i = byteAt bits i ||| b :=
  byte_eq_of_bits fun j hj => by
    rw [getLsbD_byteAt _ _ hj, BitVec.getLsbD_or, getLsbD_byteAt _ _ hj, getD_append_bitsOf hv,
      hb j hj]

/-- A byte the field passes over: R102 shifts the field right. -/
theorem byteAt_append_bitsOf_shiftRight {bits : List Bool} {v w i : Nat} (hv : v < 2 ^ w)
    (h : 8 * i + 8 ≤ bits.length + w) :
    byteAt (bits ++ bitsOf w v) i =
      byteAt bits i ||| lowByte (v >>> (bits.length + w - (8 * i + 8))) := by
  refine byteAt_append_bitsOf hv fun j hj => ?_
  rw [lowByte, BitVec.getLsbD_ofNat, Nat.testBit_shiftRight, decide_eq_true (by omega),
    decide_eq_true (by omega),
    show bits.length + w - (8 * i + 8) + (7 - j) = bits.length + w - 1 - (8 * i + j) by omega]

/-- The byte the field ends in: R102 shifts the field left. -/
theorem byteAt_append_bitsOf_shiftLeft {bits : List Bool} {v w i : Nat} (hv : v < 2 ^ w)
    (h : bits.length + w ≤ 8 * i + 8) :
    byteAt (bits ++ bitsOf w v) i =
      byteAt bits i ||| lowByte (v <<< (8 * i + 8 - (bits.length + w))) := by
  refine byteAt_append_bitsOf hv fun j hj => ?_
  rw [lowByte, BitVec.getLsbD_ofNat, Nat.testBit_shiftLeft, decide_eq_true (by omega),
    Bool.true_and]
  by_cases hj' : 8 * i + j < bits.length + w
  · rw [decide_eq_true hj', decide_eq_true (by omega),
      show 7 - j - (8 * i + 8 - (bits.length + w)) = bits.length + w - 1 - (8 * i + j) by omega]
  · rw [decide_eq_false hj', decide_eq_false (by omega), Bool.false_and, Bool.false_and]

/-- A byte past the end of the stream is 0, so the or is the appended byte itself. -/
theorem byteAt_past_end {bits : List Bool} {i : Nat} (h : byteLen bits ≤ i) :
    byteAt bits i = 0 := by
  refine byte_eq_of_bits fun j hj => ?_
  simp only [byteLen] at h
  rw [getLsbD_byteAt _ _ hj, List.getD_eq_default _ _ (by omega)]
  exact BitVec.getLsbD_zero.symm

theorem byteAt_past_end_or {bits : List Bool} {i : Nat} (b : Byte) (h : byteLen bits ≤ i) :
    byteAt bits i ||| b = b := by
  rw [byteAt_past_end h]
  exact BitVec.zero_or

theorem bytesOf_of_byteLen_one {bits : List Bool} (h : byteLen bits = 1) :
    bytesOf bits = [byteAt bits 0] := by
  rw [bytesOf, h]
  rfl

theorem bytesOf_of_byteLen_two {bits : List Bool} (h : byteLen bits = 2) :
    bytesOf bits = [byteAt bits 0, byteAt bits 1] := by
  rw [bytesOf, h]
  rfl

theorem bytesOf_of_byteLen_three {bits : List Bool} (h : byteLen bits = 3) :
    bytesOf bits = [byteAt bits 0, byteAt bits 1, byteAt bits 2] := by
  rw [bytesOf, h]
  rfl

theorem orIntoLast_append_singleton (buf : List Byte) (last : Byte) (x : Nat) :
    orIntoLast (buf ++ [last]) x = buf ++ [last ||| lowByte x] := by
  simp [orIntoLast]

/-- The buffer of R102 at a byte boundary: a field of up to 16 bits in one or two new bytes. -/
theorem bytesOf_bitsOf {v w : Nat} (hv : v < 2 ^ w) (h1 : 1 ≤ w) (h16 : w ≤ 16) :
    bytesOf (bitsOf w v) =
      if w ≤ 8 then [lowByte (v <<< (8 - w))]
      else [lowByte (v >>> (w - 8)), lowByte (v <<< (16 - w))] := by
  have hlen : byteLen (bitsOf w v) = (w + 7) / 8 := by rw [byteLen, length_bitsOf]
  have hleft := fun i => byteAt_append_bitsOf_shiftLeft (bits := []) (i := i) hv
  have hright := fun i => byteAt_append_bitsOf_shiftRight (bits := []) (i := i) hv
  simp only [List.nil_append, List.length_nil, Nat.zero_add] at hleft hright
  have hzero : ∀ (i : Nat) (b : Byte), byteAt [] i ||| b = b :=
    fun i b => byteAt_past_end_or b (Nat.zero_le i)
  split_ifs with h8
  · rw [bytesOf_of_byteLen_one (by omega), hleft 0 (by omega), hzero]
  · rw [bytesOf_of_byteLen_two (by omega), hright 0 (by omega), hleft 1 (by omega), hzero, hzero]

/-- The buffer of R102 with `SHIFT` bits in the last byte: the field completes it and goes on in up
to two new bytes. -/
theorem bytesOf_part_append_bitsOf {part : List Bool} {v w : Nat} (hv : v < 2 ^ w) (h16 : w ≤ 16)
    (hpart : 0 < part.length) (hpart8 : part.length < 8) :
    bytesOf (part ++ bitsOf w v) =
      if w + part.length ≤ 8 then [byteAt part 0 ||| lowByte (v <<< (8 - (w + part.length)))]
      else if w + part.length ≤ 16 then
        [byteAt part 0 ||| lowByte (v >>> (w + part.length - 8)),
          lowByte (v <<< (16 - (w + part.length)))]
      else
        [byteAt part 0 ||| lowByte (v >>> (w + part.length - 8)),
          lowByte (v >>> (w + part.length - 16)), lowByte (v <<< (24 - (w + part.length)))] := by
  have hlen : byteLen (part ++ bitsOf w v) = (w + part.length + 7) / 8 := by
    rw [byteLen, List.length_append, length_bitsOf, Nat.add_comm w]
  have hleft := fun i => byteAt_append_bitsOf_shiftLeft (bits := part) (i := i) hv
  have hright := fun i => byteAt_append_bitsOf_shiftRight (bits := part) (i := i) hv
  simp only [Nat.add_comm part.length w] at hleft hright
  have hpast : ∀ (i : Nat) (b : Byte), 1 ≤ i → byteAt part i ||| b = b :=
    fun i b hi => byteAt_past_end_or b (by rw [byteLen]; omega)
  split_ifs with h8 h16'
  · rw [bytesOf_of_byteLen_one (by omega), hleft 0 (by omega)]
  · rw [bytesOf_of_byteLen_two (by omega), hright 0 (by omega), hleft 1 (by omega),
      hpast 1 _ le_rfl]
  · rw [bytesOf_of_byteLen_three (by omega), hright 0 (by omega), hright 1 (by omega),
      hleft 2 (by omega), hpast 1 _ le_rfl, hpast 2 _ (by omega)]

/-- R102 on the buffer of a stream of whole bytes and a part of one. -/
theorem viewOf_append_bitsOf {bits : List Bool} {v w : Nat} (hv : v < 2 ^ w) (h1 : 1 ≤ w)
    (h16 : w ≤ 16) : viewOf (bits ++ bitsOf w v) = pushBytes (viewOf bits) v w := by
  obtain ⟨whole, part, rfl, hwhole, hpart⟩ : ∃ whole part, bits = whole ++ part ∧
      whole.length % 8 = 0 ∧ part.length < 8 :=
    ⟨bits.take (8 * (bits.length / 8)), bits.drop (8 * (bits.length / 8)),
      (List.take_append_drop _ _).symm, by rw [List.length_take]; omega,
      by rw [List.length_drop]; omega⟩
  have hshift : shiftOf (whole ++ part) = part.length := by
    rw [shiftOf, List.length_append]; omega
  have hshift' : shiftOf (whole ++ part ++ bitsOf w v) = (w + part.length) % 8 := by
    rw [shiftOf, List.length_append, List.length_append, length_bitsOf]; omega
  have hbuf : bytesOf (whole ++ part ++ bitsOf w v) =
      bytesOf whole ++ bytesOf (part ++ bitsOf w v) := by
    rw [List.append_assoc, bytesOf_append _ hwhole]
  rw [viewOf, viewOf, hshift, hshift', hbuf, bytesOf_append _ hwhole, pushBytes]
  by_cases hp : part.length = 0
  · obtain rfl := List.length_eq_zero_iff.1 hp
    simp only [List.nil_append, bytesOf_bitsOf hv h1 h16, List.length_nil, if_true]
    split_ifs <;> rw [show bytesOf [] = [] from rfl, List.append_nil]
  · simp only [bytesOf_part_append_bitsOf hv h16 (by omega) hpart, hp, if_false,
      bytesOf_of_byteLen_one (bits := part) (by rw [byteLen]; omega), orIntoLast_append_singleton]
    split_ifs <;> simp

/-- Settles O19: the appended field, placed byte by byte as R102 places it. -/
theorem pushMeetsItsByteLevelForm : Obligations.PushMeetsItsByteLevelForm := by
  intro value width s t h1 h16 ha hv ht
  cases (exec_push_of_fits ha hv).symm.trans ht
  exact viewOf_append_bitsOf hv h1 h16

/-- R104 counts the bytes up to the end of the field. -/
theorem byteLen_append_bitsOf (bits : List Bool) {w : Nat} (v : Nat) (h1 : 1 ≤ w) (h16 : w ≤ 16) :
    byteLen (bits ++ bitsOf w v) = byteLen bits + bytesAdded (shiftOf bits) w := by
  have hadded : bytesAdded (shiftOf bits) w =
      if w + shiftOf bits ≤ 8 then (if shiftOf bits = 0 then 1 else 0)
      else if w + shiftOf bits ≤ 16 then (if shiftOf bits = 0 then 2 else 1) else 2 := by
    unfold bytesAdded branchOf
    split_ifs <;> rfl
  rw [hadded, byteLen, byteLen, List.length_append, length_bitsOf, shiftOf]
  split_ifs <;> omega

/-- Settles O20: LEN after the append, counted by branches. -/
theorem pushAddsTheBytesOfItsBranch : Obligations.PushAddsTheBytesOfItsBranch := by
  intro value width s t h1 h16 ha hv ht
  cases (exec_push_of_fits ha hv).symm.trans ht
  rw [length_bytesOf, length_bytesOf]
  exact byteLen_append_bitsOf s.accS value.toNat h1 h16

/-- Settles O21: LEN and SHIFT give the number of bits, and the bytes give each of them. -/
theorem bytesAndShiftDetermineTheBits : Obligations.BytesAndShiftDetermineTheBits := by
  intro bits bits' h
  obtain ⟨hbytes, hshift⟩ := ByteAcc.mk.inj h
  have hbyteLen := congrArg List.length hbytes
  rw [length_bytesOf, length_bytesOf] at hbyteLen
  have hlen : bits.length = bits'.length := by
    simp only [shiftOf] at hshift
    simp only [byteLen] at hbyteLen
    omega
  apply List.ext_getElem hlen
  intro k hk hk'
  rw [← List.getD_eq_getElem bits false hk, ← List.getD_eq_getElem bits' false hk',
    ← bit_bytesOf bits, hbytes, bit_bytesOf]

/-- Settles O24: the two outcomes differ by PUSHB's alignment bits, which are none exactly at SHIFT
0. -/
theorem pushbIsPushOfEightBitsExactlyAtAByteBoundary :
    Obligations.PushbIsPushOfEightBitsExactlyAtAByteBoundary := by
  intro value s ha
  have hval : (value.setWidth 16).toNat = value.toNat := by
    rw [BitVec.toNat_setWidth]
    exact Nat.mod_eq_of_lt (value.isLt.trans (by decide))
  have hfits : (value.setWidth 16).toNat < 2 ^ 8 := hval ▸ value.isLt
  have halign : (alignment s.accS).length = 0 ↔ s.accS.length % 8 = 0 := by
    rw [length_alignment]; omega
  rw [exec_pushb_of_live value ha, exec_push_of_fits ha hfits, hval, ← halign]
  constructor
  · intro h
    have hbits := congrArg (fun t : State => t.accS.length) (Host.Outcome.next.inj h)
    simpa using hbits
  · intro h
    rw [List.length_eq_zero_iff.1 h, List.nil_append]

end Sys2Proof.Machine
end

section
/-! PROOFS. The mode selector (40_mode_selector.md R91, R92). -/

namespace Sys2Proof.Machine

/-- Settles O27: the closed form of the loop, with the alphabet read as the table. -/
theorem analyzeAnswersTheMostGeneralModeRequired :
    Obligations.AnalyzeAnswersTheMostGeneralModeRequired := by
  intro s
  refine ⟨decode_analyzeWord, modeOf s.text, ?_, ?_, ?_, ?_⟩
  · rw [← modeField_eq]
    rfl
  · rintro ⟨b, hb, hout⟩
    exact (modeFrom_eq_byte_iff (m := .numeric) nofun _).2
      ⟨b, hb, (isAlnumSym_eq_false_iff b).2 hout⟩
  · rintro hin ⟨b, hb, hnot⟩
    have hsym : ∀ b ∈ s.text, isAlnumSym b = true := fun b hb =>
      Bool.of_not_eq_false fun hf => hin b hb ((isAlnumSym_eq_false_iff b).1 hf)
    rw [modeOf_of_symbols hsym, if_neg]
    exact fun hdigits => hnot ((isDigit_iff b).1 (hdigits b hb))
  · intro hdigits
    exact (modeOf_eq_numeric_iff _).2 fun b hb => (isDigit_iff b).2 (hdigits b hb)

theorem validUtf8_cons_of_ascii {b0 : Byte} (rest : List Byte) (h : b0.toNat < 0x80) :
    validUtf8 (b0 :: rest) = validUtf8 rest := by
  rw [validUtf8.eq_def]
  exact if_pos h

theorem validUtf8_of_ascii {text : List Byte} (h : ∀ b ∈ text, b.toNat < 0x80) :
    validUtf8 text = true := by
  induction text with
  | nil => rfl
  | cons b rest ih =>
    obtain ⟨hb, hrest⟩ := List.forall_mem_cons.1 h
    rw [validUtf8_cons_of_ascii rest hb, ih hrest]

theorem isContinuation_eq_false_of_lt {b : Byte} (h : b.toNat < 0x80) :
    isContinuation b = false := by
  simp only [isContinuation, beq_eq_false_iff_ne]
  omega

theorem scalars_of_ascii {text : List Byte} (h : ∀ b ∈ text, b.toNat < 0x80) :
    scalars text = text.length :=
  List.countP_eq_length.2 fun b hb => by simp [isContinuation_eq_false_of_lt (h b hb)]

theorem alnumOf_of_isAlnumSym {b : Byte} (h : isAlnumSym b = true) :
    alnumOf b = some (alnumValue b) := by
  rw [(alphabet_table b).1] at h
  obtain ⟨v, hv⟩ := Option.isSome_iff_exists.1 h
  rw [alnumValue_eq, hv, Option.getD_some]

/-- Settles O28: every symbol is ASCII, so each byte is a scalar of its own. -/
theorem selectedModeGuaranteesItsEncoder : Obligations.SelectedModeGuaranteesItsEncoder := by
  refine fun text => ⟨fun h b hb => (isDigit_iff b).1 ((modeOf_eq_numeric_iff text).1 h b hb), ?_⟩
  intro h
  have hsym := isAlnumSym_of_modeOf_ne_byte (text := text) (by simp [h])
  have hascii : ∀ b ∈ text, b.toNat < 0x80 := fun b hb => isAlnumSym_ascii b (hsym b hb)
  exact ⟨validUtf8_of_ascii hascii, scalars_of_ascii hascii,
    fun b hb => ⟨hascii b hb, alnumOf_of_isAlnumSym (hsym b hb)⟩⟩

end Sys2Proof.Machine
end

section
/-! PROOFS. UTF-8 as RFC 3629 has it (42_segment_encoders.md R130, R131; log entry 12): each
sequence the check takes is the encoding of the value it carries, and each encoding is such a
sequence. -/

namespace Sys2Proof.Machine

/-- A Unicode scalar value: no surrogate, at most U+10FFFF. -/
def IsScalar (c : Nat) : Prop :=
  c < 0xD800 ∨ (0xDFFF < c ∧ c ≤ 0x10FFFF)

theorem isContinuation_iff (b : Byte) : isContinuation b = true ↔ b.toNat / 64 = 2 := by
  simp [isContinuation]

theorem isTwoByte_iff (b0 b1 : Byte) :
    isTwoByte b0 b1 = true ↔
      b0.toNat / 32 = 6 ∧ b1.toNat / 64 = 2 ∧ 0x80 ≤ b0.toNat % 32 * 64 + payload b1 := by
  simp [isTwoByte, isContinuation_iff, and_assoc]

theorem isThreeByte_iff (b0 b1 b2 : Byte) :
    isThreeByte b0 b1 b2 = true ↔
      b0.toNat / 16 = 14 ∧ b1.toNat / 64 = 2 ∧ b2.toNat / 64 = 2 ∧
        0x800 ≤ threeByteValue b0 b1 b2 ∧ IsScalar (threeByteValue b0 b1 b2) := by
  have hlt : threeByteValue b0 b1 b2 ≤ 0x10FFFF := by
    simp only [threeByteValue, payload]; omega
  have hscalar : (!(decide (0xD800 ≤ threeByteValue b0 b1 b2) &&
      decide (threeByteValue b0 b1 b2 ≤ 0xDFFF))) = true ↔ IsScalar (threeByteValue b0 b1 b2) := by
    simp only [Bool.not_eq_true', Bool.and_eq_false_iff, decide_eq_false_iff_not, IsScalar]
    omega
  rw [isThreeByte, Bool.and_eq_true, hscalar]
  simp [isContinuation_iff, and_assoc]

theorem isFourByte_iff (b0 b1 b2 b3 : Byte) :
    isFourByte b0 b1 b2 b3 = true ↔
      b0.toNat / 8 = 30 ∧ b1.toNat / 64 = 2 ∧ b2.toNat / 64 = 2 ∧ b3.toNat / 64 = 2 ∧
        0x10000 ≤ fourByteValue b0 b1 b2 b3 ∧ fourByteValue b0 b1 b2 b3 ≤ 0x10FFFF := by
  simp [isFourByte, isContinuation_iff, and_assoc]

theorem validUtf8_of_isTwoByte {b0 b1 : Byte} (rest : List Byte) (h : isTwoByte b0 b1 = true) :
    validUtf8 (b0 :: b1 :: rest) = validUtf8 rest := by
  have hlead := ((isTwoByte_iff b0 b1).1 h).1
  have hhigh : ¬ b0.toNat < 0x80 := by omega
  rw [validUtf8.eq_def]
  simp only [hhigh, h, if_true, if_false]

theorem validUtf8_of_isThreeByte {b0 b1 b2 : Byte} (rest : List Byte)
    (h : isThreeByte b0 b1 b2 = true) : validUtf8 (b0 :: b1 :: b2 :: rest) = validUtf8 rest := by
  have hlead := ((isThreeByte_iff b0 b1 b2).1 h).1
  have htwo : isTwoByte b0 b1 = false := by
    rw [← Bool.not_eq_true, isTwoByte_iff]; omega
  have hhigh : ¬ b0.toNat < 0x80 := by omega
  rw [validUtf8.eq_def]
  simp only [hhigh, htwo, h, if_true, Bool.false_eq_true, if_false]

theorem validUtf8_of_isFourByte {b0 b1 b2 b3 : Byte} (rest : List Byte)
    (h : isFourByte b0 b1 b2 b3 = true) :
    validUtf8 (b0 :: b1 :: b2 :: b3 :: rest) = validUtf8 rest := by
  have hlead := ((isFourByte_iff b0 b1 b2 b3).1 h).1
  have htwo : isTwoByte b0 b1 = false := by
    rw [← Bool.not_eq_true, isTwoByte_iff]; omega
  have hthree : isThreeByte b0 b1 b2 = false := by
    rw [← Bool.not_eq_true, isThreeByte_iff]; omega
  have hhigh : ¬ b0.toNat < 0x80 := by omega
  rw [validUtf8.eq_def]
  simp only [hhigh, htwo, hthree, h, Bool.false_eq_true, if_false, Bool.true_and]

/-- The byte of a number below 256 carries that number. -/
theorem toNat_byte {n : Nat} (h : n < 256) : (BitVec.ofNat 8 n).toNat = n := by
  rw [BitVec.toNat_ofNat]
  exact Nat.mod_eq_of_lt h

theorem utf8Encode_one {c : Nat} (h : c < 0x80) : utf8Encode c = [BitVec.ofNat 8 c] := if_pos h

theorem utf8Encode_two {c : Nat} (h : 0x80 ≤ c) (h' : c < 0x800) :
    utf8Encode c = [BitVec.ofNat 8 (0xC0 + c / 64), BitVec.ofNat 8 (0x80 + c % 64)] := by
  rw [utf8Encode, if_neg (by omega), if_pos h']

theorem utf8Encode_three {c : Nat} (h : 0x800 ≤ c) (h' : c < 0x10000) :
    utf8Encode c =
      [BitVec.ofNat 8 (0xE0 + c / 4096), BitVec.ofNat 8 (0x80 + c / 64 % 64),
       BitVec.ofNat 8 (0x80 + c % 64)] := by
  rw [utf8Encode, if_neg (by omega), if_neg (by omega), if_pos h']

theorem utf8Encode_four {c : Nat} (h : 0x10000 ≤ c) :
    utf8Encode c =
      [BitVec.ofNat 8 (0xF0 + c / 262144), BitVec.ofNat 8 (0x80 + c / 4096 % 64),
       BitVec.ofNat 8 (0x80 + c / 64 % 64), BitVec.ofNat 8 (0x80 + c % 64)] := by
  rw [utf8Encode, if_neg (by omega), if_neg (by omega), if_neg (by omega)]

/-- The four lengths of an encoding (RFC 3629). -/
theorem scalar_range {c : Nat} (h : IsScalar c) :
    c < 0x80 ∨ (0x80 ≤ c ∧ c < 0x800) ∨ (0x800 ≤ c ∧ c < 0x10000) ∨
      (0x10000 ≤ c ∧ c ≤ 0x10FFFF) := by
  unfold IsScalar at h
  omega

/-- The encoding of a scalar is taken whole by the check. -/
theorem validUtf8_utf8Encode_append {c : Nat} (hc : IsScalar c) (rest : List Byte) :
    validUtf8 (utf8Encode c ++ rest) = validUtf8 rest := by
  obtain h | ⟨hlo, hhi⟩ | ⟨hlo, hhi⟩ | ⟨hlo, hhi⟩ := scalar_range hc
  · rw [utf8Encode_one h]
    exact validUtf8_cons_of_ascii rest (by rw [toNat_byte (by omega)]; exact h)
  · rw [utf8Encode_two hlo hhi]
    refine validUtf8_of_isTwoByte rest ?_
    rw [isTwoByte_iff, payload, toNat_byte (by omega), toNat_byte (by omega)]
    omega
  · rw [utf8Encode_three hlo hhi]
    refine validUtf8_of_isThreeByte rest ?_
    rw [isThreeByte_iff, threeByteValue, payload, payload, toNat_byte (by omega),
      toNat_byte (by omega), toNat_byte (by omega)]
    have hvalue : ((0xE0 + c / 4096) % 16 * 64 + (0x80 + c / 64 % 64) % 64) * 64 +
        (0x80 + c % 64) % 64 = c := by omega
    rw [hvalue]
    exact ⟨by omega, by omega, by omega, hlo, hc⟩
  · rw [utf8Encode_four hlo]
    refine validUtf8_of_isFourByte rest ?_
    rw [isFourByte_iff, fourByteValue, payload, payload, payload, toNat_byte (by omega),
      toNat_byte (by omega), toNat_byte (by omega), toNat_byte (by omega)]
    omega

/-- Two bytes with the same number are equal; the number is given below 256. -/
theorem byte_eq_ofNat {b : Byte} {n : Nat} (h : b.toNat = n) : BitVec.ofNat 8 n = b := by
  rw [← h, BitVec.ofNat_toNat, BitVec.setWidth_eq]

theorem utf8Encode_of_ascii {b0 : Byte} (h : b0.toNat < 0x80) :
    IsScalar b0.toNat ∧ utf8Encode b0.toNat = [b0] := by
  refine ⟨.inl (by omega), ?_⟩
  rw [utf8Encode_one h, byte_eq_ofNat rfl]

theorem utf8Encode_of_isTwoByte {b0 b1 : Byte} (h : isTwoByte b0 b1 = true) :
    ∃ c, IsScalar c ∧ utf8Encode c = [b0, b1] := by
  obtain ⟨h0, h1, hlo⟩ := (isTwoByte_iff b0 b1).1 h
  rw [payload] at hlo
  refine ⟨b0.toNat % 32 * 64 + b1.toNat % 64, .inl (by omega), ?_⟩
  rw [utf8Encode_two hlo (by omega), byte_eq_ofNat (b := b0) (by omega),
    byte_eq_ofNat (b := b1) (by omega)]

theorem utf8Encode_of_isThreeByte {b0 b1 b2 : Byte} (h : isThreeByte b0 b1 b2 = true) :
    ∃ c, IsScalar c ∧ utf8Encode c = [b0, b1, b2] := by
  obtain ⟨h0, h1, h2, hlo, hscalar⟩ := (isThreeByte_iff b0 b1 b2).1 h
  refine ⟨_, hscalar, ?_⟩
  simp only [threeByteValue, payload] at hlo ⊢
  rw [utf8Encode_three hlo (by omega), byte_eq_ofNat (b := b0) (by omega),
    byte_eq_ofNat (b := b1) (by omega), byte_eq_ofNat (b := b2) (by omega)]

theorem utf8Encode_of_isFourByte {b0 b1 b2 b3 : Byte} (h : isFourByte b0 b1 b2 b3 = true) :
    ∃ c, IsScalar c ∧ utf8Encode c = [b0, b1, b2, b3] := by
  obtain ⟨h0, h1, h2, h3, hlo, hhi⟩ := (isFourByte_iff b0 b1 b2 b3).1 h
  refine ⟨_, .inr ⟨by omega, hhi⟩, ?_⟩
  simp only [fourByteValue, payload] at hlo ⊢
  rw [utf8Encode_four hlo, byte_eq_ofNat (b := b0) (by omega), byte_eq_ofNat (b := b1) (by omega),
    byte_eq_ofNat (b := b2) (by omega), byte_eq_ofNat (b := b3) (by omega)]

/-- The text is the concatenation of the encodings of a list of scalars. -/
def IsEncoded (text : List Byte) : Prop :=
  ∃ cs : List Nat, (∀ c ∈ cs, IsScalar c) ∧ text = cs.flatMap utf8Encode

theorem IsEncoded.cons {sequence rest : List Byte}
    (h : ∃ c, IsScalar c ∧ utf8Encode c = sequence) (hrest : IsEncoded rest) :
    IsEncoded (sequence ++ rest) := by
  obtain ⟨c, hc, rfl⟩ := h
  obtain ⟨cs, hcs, rfl⟩ := hrest
  exact ⟨c :: cs, List.forall_mem_cons.2 ⟨hc, hcs⟩, by rw [List.flatMap_cons]⟩

theorem isEncoded_of_validUtf8 {text : List Byte} (h : validUtf8 text = true) :
    IsEncoded text := by
  fun_induction validUtf8 text with
  | case1 => exact ⟨[], nofun, rfl⟩
  | case2 b0 t0 hb ih => exact (ih h).cons ⟨_, utf8Encode_of_ascii hb⟩
  | case3 => cases h
  | case4 b0 _ b1 t1 htwo ih => exact (ih h).cons (utf8Encode_of_isTwoByte htwo)
  | case5 => cases h
  | case6 b0 _ b1 _ b2 t2 hthree ih => exact (ih h).cons (utf8Encode_of_isThreeByte hthree)
  | case7 => cases h
  | case8 b0 _ b1 _ b2 _ b3 t3 ih =>
    obtain ⟨hfour, hrest⟩ := Bool.and_eq_true_iff.1 h
    exact (ih hrest).cons (utf8Encode_of_isFourByte hfour)

theorem validUtf8_of_isEncoded {text : List Byte} (h : IsEncoded text) : validUtf8 text = true := by
  obtain ⟨cs, hcs, rfl⟩ := h
  induction cs with
  | nil => rfl
  | cons c cs ih =>
    obtain ⟨hc, hcs⟩ := List.forall_mem_cons.1 hcs
    rw [List.flatMap_cons, validUtf8_utf8Encode_append hc, ih hcs]

theorem isContinuation_tail {n : Nat} (h : n < 64) :
    isContinuation (BitVec.ofNat 8 (0x80 + n)) = true := by
  rw [isContinuation_iff, toNat_byte (by omega)]; omega

theorem isContinuation_lead {n : Nat} (h : n < 256) (hlead : n / 64 ≠ 2) :
    isContinuation (BitVec.ofNat 8 n) = false := by
  rwa [← Bool.not_eq_true, isContinuation_iff, toNat_byte h]

/-- An encoding has one byte that is no continuation byte, its lead. -/
theorem scalars_utf8Encode {c : Nat} (hc : IsScalar c) : scalars (utf8Encode c) = 1 := by
  have htail : ∀ n, isContinuation (BitVec.ofNat 8 (0x80 + n % 64)) = true :=
    fun n => isContinuation_tail (Nat.mod_lt n (by decide))
  obtain h | ⟨hlo, hhi⟩ | ⟨hlo, hhi⟩ | ⟨hlo, hhi⟩ := scalar_range hc
  · have hlead := isContinuation_lead (n := c) (by omega) (by omega)
    simp [utf8Encode_one h, hlead, scalars]
  · have hlead := isContinuation_lead (n := 0xC0 + c / 64) (by omega) (by omega)
    simp [utf8Encode_two hlo hhi, hlead, htail, scalars]
  · have hlead := isContinuation_lead (n := 0xE0 + c / 4096) (by omega) (by omega)
    simp [utf8Encode_three hlo hhi, hlead, htail, scalars]
  · have hlead := isContinuation_lead (n := 0xF0 + c / 262144) (by omega) (by omega)
    simp [utf8Encode_four hlo, hlead, htail, scalars]

theorem scalars_flatMap_utf8Encode {cs : List Nat} (h : ∀ c ∈ cs, IsScalar c) :
    scalars (cs.flatMap utf8Encode) = cs.length := by
  induction cs with
  | nil => rfl
  | cons c cs ih =>
    obtain ⟨hc, hcs⟩ := List.forall_mem_cons.1 h
    have hsum : scalars (utf8Encode c ++ cs.flatMap utf8Encode) =
        scalars (utf8Encode c) + scalars (cs.flatMap utf8Encode) := List.countP_append
    rw [List.flatMap_cons, hsum, scalars_utf8Encode hc, ih hcs, List.length_cons, Nat.add_comm]

/-- Settles O33: both directions sequence by sequence, and one scalar counted for each. -/
theorem validTextIsTheEncodingOfItsScalars : Obligations.ValidTextIsTheEncodingOfItsScalars :=
  ⟨fun _ => ⟨isEncoded_of_validUtf8, validUtf8_of_isEncoded⟩, fun _ => scalars_flatMap_utf8Encode⟩

end Sys2Proof.Machine
end

section
/-! PROOFS. A truncated count and the default capacity (42_segment_encoders.md R134): in each band
of versions the shortest text with a truncated count is longer than the largest default capacity.
-/

namespace Sys2Proof.Machine

theorem charCount_le_length (m : Mode) (text : List Byte) : charCount m text ≤ text.length := by
  cases m with
  | numeric => exact le_rfl
  | alphanumeric => exact List.countP_le_length
  | byte => exact List.countP_le_length

/-- The largest default capacity of a version's band: the band's last version at level L. -/
def bandCap (ver : Nat) : Nat :=
  if ver ≤ 9 then 232 else if ver ≤ 26 then 1370 else 2956

theorem isoCap_le_bandCap {ver : Nat} (ec : ECLevel) (h40 : ver ≤ 40) :
    Config.isoCap ver ec ≤ bandCap ver := by
  have hrows : ∀ v < 41, Config.isoCap v .L ≤ bandCap v ∧ Config.isoCap v .M ≤ bandCap v ∧
      Config.isoCap v .Q ≤ bandCap v ∧ Config.isoCap v .H ≤ bandCap v := by
    decide
  obtain ⟨hL, hM, hQ, hH⟩ := hrows ver (by omega)
  cases ec with
  | L => exact hL
  | M => exact hM
  | Q => exact hQ
  | H => exact hH

/-- The data of `2^cw` characters, header left out, does not fit the band. The closest case is
Alphanumeric in the second band: 11264 bits for 10960. -/
theorem bandCap_lt_dataLength {m : Mode} {ver n : Nat} (h : 2 ^ countWidthOf ver m ≤ n) :
    8 * bandCap ver < dataLength m n := by
  cases m with
  | numeric =>
    have htriples : 10 * (n / 3) ≤ dataLength .numeric n := Nat.le_add_right _ _
    simp only [countWidthOf] at h
    unfold bandCap
    split_ifs at h ⊢ <;> omega
  | alphanumeric =>
    have hpairs : 11 * (n / 2) ≤ dataLength .alphanumeric n := Nat.le_add_right _ _
    simp only [countWidthOf] at h
    unfold bandCap
    split_ifs at h ⊢ <;> omega
  | byte =>
    have hbytes : dataLength .byte n = 8 * n := rfl
    simp only [countWidthOf] at h
    unfold bandCap
    split_ifs at h ⊢ <;> omega

/-- Settles O34: a text with a truncated count is at least `2^cw` bytes long, and its data alone
exceeds the band's largest cell. -/
theorem truncatedCountNeverFitsTheDefaultCapacity :
    Obligations.TruncatedCountNeverFitsTheDefaultCapacity := by
  intro m ver text _ h40 _ htrunc ec
  have hcap := isoCap_le_bandCap ec h40
  have hdata := bandCap_lt_dataLength (htrunc.trans (charCount_le_length m text))
  rw [segBits]
  omega

end Sys2Proof.Machine
end
